-- ==== Sys2Proof/Word.lean ====
section
/-! DEFINITION. The word types of the block (spec/00_scope.md R9: XLEN = 32, values unsigned). -/

namespace Sys2Proof

/-- A memory byte, `u8` (00_scope.md section 6). -/
abbrev Byte := BitVec 8

/-- A register value or a memory word, `u32` (00_scope.md R9). -/
abbrev Word := BitVec 32

/-- A request word, format `REQ` (30_encoding.md R56). -/
abbrev ReqWord := BitVec 72

/-- A response word, format `RSP` (30_encoding.md R60). -/
abbrev RspWord := BitVec 48

end Sys2Proof
end

