-- ==== Sys2Proof/Config.lean ====
section
/-! DEFINITION. The parameters of the block (spec/00_scope.md R9), and the values the model names for the
open reset parameters. The two coprocessor-0 sets of R9 stand in one table (41_cop0_ops.md R82), in
Machine/Operands.lean. No operation has an undefined result, so there is no free value here. -/

namespace Sys2Proof

/-- `C`, the memory capacity in bytes: 2 MiB (00_scope.md R9, 10_state.md R21). -/
def Config.capacity : Nat := 0x200000

/-- `FILL0`, the sentinel byte of the power-on fill (00_scope.md R9, 10_state.md R31). -/
def Config.fill0 : Byte := 0xCA#8

/-- `ADDR_W`: the `addr` operand of a request is below `2 ^ 32` (00_scope.md R9, 30_encoding.md R58). -/
def Config.addrLimit : Nat := 2 ^ 32

/-- The value `State.reset` names for `GPR_RESET[1..31]`. DESIGN CHOICE, unsafe (log entry 3): the spec
leaves it open (10_state.md R29); statements quantify over `Machine.State.resetWith` instead. -/
def Config.namedGprReset : Word := 0#32

/-- The value `State.reset` names for `COP0_RESET[i]`, `i ≠ 15`. DESIGN CHOICE, unsafe (log entry 4): the
spec leaves it open (10_state.md R30). -/
def Config.namedCop0Reset : Word := 0#32

/-- The value `State.reset` names for `COP0_RESET[15]`, PRID. PRESUMED, unsafe (log entry 5): the suggested
instantiation of 93_implementation_defined.md G4, from general knowledge. -/
def Config.namedPridReset : Word := 2#32

end Sys2Proof
end

