-- ==== Sys2Proof/Syntax.lean ====
section
/-! DEFINITION. The six operations of the block (spec/00_scope.md R5, 30_encoding.md R57), one constructor
for each row of spec/opcode_table.json, and the request triple of R55. -/

namespace Sys2Proof

/-- An operation as the document calls it: a register index or byte offset, "integer" (30_encoding.md R58),
and for the writing operations a `u32` value (R59). An integer outside the 32-bit range has the meaning the
spec gives it (92_eei_decisions.md D2) but no encoding: `Instr.WellFormed`. -/
inductive Instr where
  /-- `GPR_GET`: `GetRegister(index) -> uint32` (40_gpr_ops.md R70). -/
  | gprGet (index : Int)
  /-- `GPR_SET`: `SetRegister(index, value)` (40_gpr_ops.md R71). -/
  | gprSet (index : Int) (value : Word)
  /-- `COP0_GET`: `GetRegister(index) -> (value, name)` (41_cop0_ops.md R80). -/
  | cop0Get (index : Int)
  /-- `COP0_SET`: `SetRegister(index, value) -> name` (41_cop0_ops.md R81). -/
  | cop0Set (index : Int) (value : Word)
  /-- `MEM_LOADWORD`: `LoadWord(offset) -> uint32` (42_mem_ops.md R90). -/
  | memLoadword (offset : Int)
  /-- `MEM_STOREWORD`: `StoreWord(offset, value)` (42_mem_ops.md R91). -/
  | memStoreword (offset : Int) (value : Word)
deriving DecidableEq, Repr

/-- The request triple `(op, addr, wdata)` of 30_encoding.md R55, each field as wide as R56 makes it. -/
structure Request where
  op    : BitVec 8
  addr  : BitVec 32
  wdata : Word
deriving DecidableEq, Repr

/-- The `addr` operand of an operation: the index or the offset (30_encoding.md R57). -/
def Instr.addr : Instr → Int
  | .gprGet i => i
  | .gprSet i _ => i
  | .cop0Get i => i
  | .cop0Set i _ => i
  | .memLoadword o => o
  | .memStoreword o _ => o

end Sys2Proof
end

