-- ==== Sys2Proof/WellFormed.lean ====
section
/-! DEFINITION. Which operations a request word can express (spec/30_encoding.md R58): the index or offset is
an unsigned 32-bit integer. Within that range every value of `addr` and of `wdata` is legal (R63). -/

namespace Sys2Proof

/-- "a negative index or offset cannot be written in this encoding" (30_encoding.md R58). -/
abbrev Instr.AddrNonneg (i : Instr) : Prop := 0 ≤ i.addr

/-- `addr` is "0 to 2^32 - 1" (30_encoding.md R58). -/
abbrev Instr.AddrFits (i : Instr) : Prop := i.addr < (Config.addrLimit : Int)

/-- An operation that a request word expresses. -/
abbrev Instr.WellFormed (i : Instr) : Prop := i.AddrNonneg ∧ i.AddrFits

end Sys2Proof
end

