-- ==== Sys2Proof/Decode.lean ====
section
/-! DEFINITION. The request format `REQ` (spec/30_encoding.md R56 to R59, R63, R64): packing, the decoder, the
encoder, and the opcode table as rows of a match, a mask and a mnemonic. -/

namespace Sys2Proof

/-- Why a request word spells no operation. -/
inductive DecodeError where
  /-- `op` is one of 0x06 to 0xFF (30_encoding.md R63). -/
  | reservedOp (op : BitVec 8)
deriving DecidableEq, Repr

/-- The three fields of a request word: `op` 71:64, `addr` 63:32, `wdata` 31:0 (30_encoding.md R56). -/
def Request.unpack (w : ReqWord) : Request :=
  { op := w.extractLsb' 64 8, addr := w.extractLsb' 32 32, wdata := w.extractLsb' 0 32 }

/-- The request word of three fields (30_encoding.md R56). -/
def Request.pack (r : Request) : ReqWord := r.op ++ (r.addr ++ r.wdata)

/-- The operation a request spells: `op` alone selects it (30_encoding.md R57, R64), `addr` is read as an
unsigned integer (R58), and the `wdata` of a reading operation is ignored (R59). -/
def Request.operation (r : Request) : Except DecodeError Instr :=
  match r.op.toNat with
  | 0 => .ok (.gprGet r.addr.toNat)
  | 1 => .ok (.gprSet r.addr.toNat r.wdata)
  | 2 => .ok (.cop0Get r.addr.toNat)
  | 3 => .ok (.cop0Set r.addr.toNat r.wdata)
  | 4 => .ok (.memLoadword r.addr.toNat)
  | 5 => .ok (.memStoreword r.addr.toNat r.wdata)
  | _ => .error (.reservedOp r.op)

/-- Decoding, total on every 72-bit word (30_encoding.md R64). -/
def decode (w : ReqWord) : Except DecodeError Instr := (Request.unpack w).operation

/-- The op code of an operation (30_encoding.md R57). -/
def Instr.opCode : Instr → BitVec 8
  | .gprGet _ => 0x00#8
  | .gprSet _ _ => 0x01#8
  | .cop0Get _ => 0x02#8
  | .cop0Set _ _ => 0x03#8
  | .memLoadword _ => 0x04#8
  | .memStoreword _ _ => 0x05#8

/-- The `wdata` field of the canonical encoding: the value, or 0 for a reading operation (30_encoding.md R59). -/
def Instr.wdata : Instr → Word
  | .gprGet _ => 0#32
  | .gprSet _ v => v
  | .cop0Get _ => 0#32
  | .cop0Set _ v => v
  | .memLoadword _ => 0#32
  | .memStoreword _ v => v

/-- The canonical request of an operation (30_encoding.md R56, R57, R59). -/
def Instr.request (i : Instr) : Request :=
  { op := i.opCode, addr := BitVec.ofInt 32 i.addr, wdata := i.wdata }

/-- The canonical request word of an operation; of a well-formed one, decoding gives it back. -/
def encode (i : Instr) : ReqWord := i.request.pack

/-- The mnemonic of an operation (30_encoding.md R57, R65). -/
def Instr.mnemonic : Instr → String
  | .gprGet _ => "GPR_GET"
  | .gprSet _ _ => "GPR_SET"
  | .cop0Get _ => "COP0_GET"
  | .cop0Set _ _ => "COP0_SET"
  | .memLoadword _ => "MEM_LOADWORD"
  | .memStoreword _ _ => "MEM_STOREWORD"

/-- A row of spec/opcode_table.json. -/
structure OpRow where
  mnemonic : String
  pattern  : ReqWord
  mask     : ReqWord
deriving DecidableEq, Repr

/-- The row matches the word: the bits under the mask are the pattern (30_encoding.md R64). -/
abbrev OpRow.Matches (r : OpRow) (w : ReqWord) : Prop := w &&& r.mask = r.pattern

/-- spec/opcode_table.json: `match` is `op << 64` and `mask` is `0xFF << 64` (30_encoding.md R64). -/
def opTable : List OpRow :=
  [ ⟨"GPR_GET",       0x000000000000000000#72, 0xFF0000000000000000#72⟩,
    ⟨"GPR_SET",       0x010000000000000000#72, 0xFF0000000000000000#72⟩,
    ⟨"COP0_GET",      0x020000000000000000#72, 0xFF0000000000000000#72⟩,
    ⟨"COP0_SET",      0x030000000000000000#72, 0xFF0000000000000000#72⟩,
    ⟨"MEM_LOADWORD",  0x040000000000000000#72, 0xFF0000000000000000#72⟩,
    ⟨"MEM_STOREWORD", 0x050000000000000000#72, 0xFF0000000000000000#72⟩ ]

/-- The request word whose low `nbits` bits are `w`'s, the bits above them 0, if it has at most 72 bits. -/
def tableWord? (nbits w : Nat) : Option ReqWord :=
  if w % 2 ^ nbits < 2 ^ 72 then some (BitVec.ofNat 72 (w % 2 ^ nbits)) else none

/-- The instruction the decoder reads from the word `w` of `nbits` bits, numbered as
spec/opcode_table.json numbers them (bit 71 is the top bit of `op`). -/
def decodeTableWord (nbits w : Nat) : Option Instr :=
  match tableWord? nbits w with
  | none => none
  | some word =>
    match decode word with
    | .ok i => some i
    | .error _ => none

end Sys2Proof
end

