-- ==== Sys2Proof/Machine/Memory.lean ====
section
/-! DEFINITION. `Memory` (spec/10_state.md R21, R31; 20_memory.md): the byte store in one canonical form, the
two word primitives `MemRead` and `MemWrite`, the bounds test, the power-on fill and the raw dump. -/

namespace Sys2Proof.Machine

/-- The bytes that differ from the power-on fill, as (offset, byte) pairs at strictly rising offsets; an
offset below `C` that is not listed holds `FILL0` (10_state.md R31). -/
abbrev Memory := List Host.Cell

/-- The canonical form: offsets strictly rising, every offset below `C` (10_state.md R21), no listed byte
equal to what an unlisted offset reads as. -/
abbrev Memory.wf (m : Memory) : Prop :=
  m.Pairwise (fun p q => p.1 < q.1) ∧ ∀ p ∈ m, p.1 < Config.capacity ∧ p.2 ≠ Config.fill0

/-- `M[a]`, for `a` below `C` (00_scope.md section 6). -/
def Memory.byteAt : Memory → Nat → Byte
  | [], _ => Config.fill0
  | (k, b) :: m, a => if k = a then b else Memory.byteAt m a

/-- `M[a] <- b`, keeping the canonical form: writing `FILL0` takes the entry out. -/
def Memory.setByte : Memory → Nat → Byte → Memory
  | [], a, b => if b = Config.fill0 then [] else [(a, b)]
  | (k, c) :: m, a, b =>
    if k < a then (k, c) :: Memory.setByte m a b
    else
      let rest := if k = a then m else (k, c) :: m
      if b = Config.fill0 then rest else (a, b) :: rest

/-- The bounds test of 20_memory.md R41, on unbounded integers (R42): no wrap, and a negative offset is out
of bounds. -/
abbrev InBounds (offset : Int) : Prop := 0 ≤ offset ∧ offset + 3 < (Config.capacity : Int)

/-- `MemRead(o, 4)`: the four bytes composed little-endian (20_memory.md R39). -/
def Memory.readWord (m : Memory) (o : Nat) : Word :=
  m.byteAt (o + 3) ++ m.byteAt (o + 2) ++ m.byteAt (o + 1) ++ m.byteAt o

/-- `v[8k+7 : 8k]` (20_memory.md R40). -/
def byteLane (v : Word) (k : Nat) : Byte := v.extractLsb' (8 * k) 8

/-- `MemWrite(o, 4, v)`: the four little-endian bytes of `v`, and no other (20_memory.md R40). -/
def Memory.writeWord (m : Memory) (o : Nat) (v : Word) : Memory :=
  (((m.setByte o (byteLane v 0)).setByte (o + 1) (byteLane v 1)).setByte (o + 2) (byteLane v 2)).setByte
    (o + 3) (byteLane v 3)

/-- The host's raw dump of `n` bytes from offset `a` (00_scope.md R6, 20_memory.md R45): an observation. It
is `none` where it would leave `M[0..C-1]`. -/
def rawDump (m : Memory) (a n : Nat) : Option (List Byte) :=
  if a + n ≤ Config.capacity then some ((List.range n).map fun k => m.byteAt (a + k)) else none

/-- One pass of the power-on fill: copy the initialised bytes into the region after them, cut short at the
capacity (10_state.md R31). -/
def fillPass (cap : Nat) (m : List Byte) : List Byte := m ++ m.take (min m.length (cap - m.length))

/-- The power-on fill, at most `passes` passes: "repeatedly copy the already-initialized prefix ... until
the buffer is full" (10_state.md R31). -/
def fillPasses (cap : Nat) : Nat → List Byte → List Byte
  | 0, m => m
  | p + 1, m => if m.length < cap then fillPasses cap p (fillPass cap m) else m

/-- The whole fill of a buffer of `cap` bytes: byte 0 is the sentinel, then passes until full (10_state.md
R31). Every pass but a last, cut one doubles the length, so `cap` passes are enough. -/
def powerOnFill (cap : Nat) : List Byte := fillPasses cap cap [Config.fill0]

end Sys2Proof.Machine
end

