-- ==== Sys2Proof/Machine/State.lean ====
section
/-! DEFINITION. The state of the block (spec/10_state.md R33) as plain data, with the driver's pending
requests and the block's two output streams beside it, and the state after reset (70_reset_and_hazards.md
R120). -/

namespace Sys2Proof.Machine

/-- `x[0..31]` (10_state.md R10). -/
abbrev GprFile := Vector Word 32

/-- The 11 entries of the coprocessor-0 file (10_state.md R14, R18), by the names of R18's table. The names
of indices 3, 5, 6, 7, 9 and 11 are from general knowledge (93_implementation_defined.md G2, log entry 8). -/
inductive Cop0Reg where
  | bpc | bda | jumpdest | dcic | badVaddr | bdam | bpcm | sr | cause | epc | prid
deriving DecidableEq, Repr

/-- `c0[i]` for the 11 recognised indices, each one flat 32-bit word (10_state.md R14, R19). -/
structure Cop0File where
  bpc      : Word   -- c0[3]
  bda      : Word   -- c0[5]
  jumpdest : Word   -- c0[6]
  dcic     : Word   -- c0[7]
  badVaddr : Word   -- c0[8], read-only
  bdam     : Word   -- c0[9]
  bpcm     : Word   -- c0[11]
  sr       : Word   -- c0[12]
  cause    : Word   -- c0[13]
  epc      : Word   -- c0[14]
  prid     : Word   -- c0[15], read-only
deriving DecidableEq, Repr

/-- The severity of a diagnostic event (10_state.md R25). -/
inductive Severity where
  | advisory | fatal
deriving DecidableEq, Repr

/-- The component that reports (60_exceptions.md R105): memory emits no diagnostic. -/
inductive Reporter where
  | gpr | cop0
deriving DecidableEq, Repr

/-- The register-file operation that reports (60_exceptions.md R105). -/
inductive RegAccess where
  | get | set
deriving DecidableEq, Repr

/-- The memory operation that raises `Bounds` (42_mem_ops.md R90, R91). -/
inductive MemAccess where
  | load | store
deriving DecidableEq, Repr

/-- A diagnostic event `(severity, component, operation, index)` (60_exceptions.md R105). -/
structure Diagnostic where
  severity  : Severity
  component : Reporter
  operation : RegAccess
  index     : Int
deriving DecidableEq, Repr

/-- The three failure signals with what each `raise` carries (60_exceptions.md R100 to R105). -/
inductive Signal where
  | advisory (component : Reporter) (operation : RegAccess) (index : Int)
  | bounds (operation : MemAccess) (offset : Int)
  | fatal (component : Reporter) (operation : RegAccess) (index : Int)
deriving DecidableEq, Repr

/-- The typed result of an operation (30_encoding.md R62), one constructor per outcome. -/
inductive Result where
  /-- `GPR_GET`, index in [0,31]. -/
  | gprValue (v : Word)
  /-- `GPR_GET`, index out of range: the fallback value, with an advisory diagnostic. -/
  | gprValueW (v : Word)
  /-- `GPR_SET`, index in [0,31]. -/
  | gprDone
  /-- `GPR_SET`, index out of range, with an advisory diagnostic. -/
  | gprDoneW
  /-- `COP0_GET`, recognised index: the value and the canonical name. -/
  | cop0Value (v : Word) (name : Cop0Reg)
  /-- `COP0_SET`, writable index: the canonical name. -/
  | cop0Done (name : Cop0Reg)
  /-- `COP0_SET`, index 8 or 15: the read-only rejection label. -/
  | cop0RoDone
  /-- `MEM_LOADWORD` in bounds. -/
  | memValue (v : Word)
  /-- `MEM_STOREWORD` in bounds. -/
  | memDone
  /-- Either memory operation, out of bounds. -/
  | outOfBounds
  /-- Either coprocessor-0 operation, unrecognised index. -/
  | fatalAbort
deriving DecidableEq, Repr

/-- The state: the tuple `(x, c0, M, halted)` of 10_state.md R33, then the model's own fields for the
block's input and outputs (log entries 1 and 6). -/
structure State where
  /-- `x[0..31]`. -/
  gpr         : GprFile
  /-- `c0[i]`. -/
  cop0        : Cop0File
  /-- `M[0..C-1]`. -/
  mem         : Memory
  /-- The halt latch (10_state.md R24). -/
  halted      : Bool
  /-- The driver's requests that the block has not yet taken, oldest first (30_encoding.md R55). -/
  requests    : List ReqWord
  /-- The results returned so far, oldest first (30_encoding.md R62). No operation reads them. -/
  responses   : List Result
  /-- The diagnostic events emitted so far, oldest first (10_state.md R25). No operation reads them. -/
  diagnostics : List Diagnostic
deriving DecidableEq, Repr

/-- Why the machine stops. -/
inductive Fault where
  /-- Raised by every operation and by `fetch` when `halted = 1`: "no request has a step"
  (60_exceptions.md R108). Safe: the block gives no response and changes nothing (log entry 2). -/
  | halted
deriving DecidableEq, Repr

/-- Why a step has no meaning. -/
inductive Refusal where
  /-- Raised by an arm of `exec` whose instruction has no meaning in the model yet: none. Safe. -/
  | notModelled (mnemonic : String)
  /-- Raised by `fetch` on a request whose `op` is 0x06 to 0xFF: "a model refuses it by name"
  (30_encoding.md R63). Safe (log entry 9). -/
  | reservedOp (op : BitVec 8)
  /-- Raised by `fetch` when the driver has no more requests: there is nothing to do a step for
  (00_scope.md R3, 70_reset_and_hazards.md R124). Safe (log entry 2). -/
  | noRequest
deriving DecidableEq, Repr

/-- The open reset parameters `GPR_RESET[1..31]` (slot 0 is not used) and `COP0_RESET[i]` (00_scope.md R9,
10_state.md R29, R30). -/
structure ResetParams where
  gpr  : GprFile
  cop0 : Cop0File
deriving DecidableEq, Repr

/-- `reset()` of 70_reset_and_hazards.md R120, for any choice of the open parameters: the creation of an
instance. An empty list of cells is memory with every byte `FILL0` (10_state.md R31). -/
def State.resetWith (p : ResetParams) : State :=
  { gpr := p.gpr.set 0 0#32
    cop0 := p.cop0
    mem := []
    halted := false
    requests := []
    responses := []
    diagnostics := [] }

/-- The values the model names for the open parameters (log entries 3, 4 and 5; unsafe). -/
def ResetParams.named : ResetParams :=
  { gpr := Vector.replicate 32 Config.namedGprReset
    cop0 :=
      { bpc := Config.namedCop0Reset, bda := Config.namedCop0Reset, jumpdest := Config.namedCop0Reset
        dcic := Config.namedCop0Reset, badVaddr := Config.namedCop0Reset, bdam := Config.namedCop0Reset
        bpcm := Config.namedCop0Reset, sr := Config.namedCop0Reset, cause := Config.namedCop0Reset
        epc := Config.namedCop0Reset, prid := Config.namedPridReset } }

/-- The machine right after reset (70_reset_and_hazards.md R120), at the named parameter values. -/
def State.reset : State := State.resetWith ResetParams.named

end Sys2Proof.Machine
end

