-- ==== Sys2Proof/Machine/Operands.lean ====
section
/-! DEFINITION. What an index operand names: a general register slot (spec/10_state.md R13), or an entry of
the static coprocessor-0 table (41_cop0_ops.md R82). The only other operand form is the byte offset, whose
test is `InBounds` (20_memory.md R41). -/

namespace Sys2Proof.Machine

/-- The slot an index reaches: `index` in [0,31], never reduced modulo 32 (40_gpr_ops.md R70, R71). -/
def gprSlot? (index : Int) : Option (Fin 32) :=
  if h : 0 ≤ index ∧ index ≤ 31 then some ⟨index.toNat, by omega⟩ else none

/-- A row of the static lookup table "index → {name, read-only flag}" (41_cop0_ops.md R82, 10_state.md R15). -/
structure Cop0Entry where
  index    : Nat
  name     : Cop0Reg
  readOnly : Bool
deriving DecidableEq, Repr

/-- The 11 recognised indices, with 8 and 15 read-only (10_state.md R14, R16, R18). -/
def cop0Table : List Cop0Entry :=
  [ ⟨3, .bpc, false⟩, ⟨5, .bda, false⟩, ⟨6, .jumpdest, false⟩, ⟨7, .dcic, false⟩, ⟨8, .badVaddr, true⟩,
    ⟨9, .bdam, false⟩, ⟨11, .bpcm, false⟩, ⟨12, .sr, false⟩, ⟨13, .cause, false⟩, ⟨14, .epc, false⟩,
    ⟨15, .prid, true⟩ ]

/-- The entry an index names; `none` is an unrecognised index, inside [0,31] or not (10_state.md R17). -/
def cop0Lookup (index : Int) : Option Cop0Entry :=
  cop0Table.find? fun e => decide ((e.index : Int) = index)

/-- The index of an entry by its name, which is also its name tag (30_encoding.md R60). -/
def Cop0Reg.index : Cop0Reg → Nat
  | .bpc => 3
  | .bda => 5
  | .jumpdest => 6
  | .dcic => 7
  | .badVaddr => 8
  | .bdam => 9
  | .bpcm => 11
  | .sr => 12
  | .cause => 13
  | .epc => 14
  | .prid => 15

/-- The conventional roles of the general registers (10_state.md R12). -/
inductive GprRole where
  | constantZero | assemblerTemporary | returnValue | argument | temporary | calleeSaved | kernelReserved
  | globalPointer | stackPointer | framePointer | returnAddress
deriving DecidableEq, Repr

/-- The role of a slot by the table of 10_state.md R12; every binding but those of 0 and 4 is general
knowledge (93_implementation_defined.md G1, log entry 17). No operation reads it. -/
def gprRole (r : Fin 32) : GprRole :=
  match r.val with
  | 0 => .constantZero
  | 1 => .assemblerTemporary
  | 2 | 3 => .returnValue
  | 4 | 5 | 6 | 7 => .argument
  | 8 | 9 | 10 | 11 | 12 | 13 | 14 | 15 | 24 | 25 => .temporary
  | 26 | 27 => .kernelReserved
  | 28 => .globalPointer
  | 29 => .stackPointer
  | 30 => .framePointer
  | 31 => .returnAddress
  | _ => .calleeSaved

end Sys2Proof.Machine
end

