-- ==== Sys2Proof/Machine/Ops.lean ====
section
/-! DEFINITION. The shared operations over the state: register and memory access, the diagnostic stream,
raising a failure signal (spec/60_exceptions.md R100 to R107), answering, and taking the driver's next
request. There is no return beside it: a signal needs none, and only reset clears the halt latch (R109). -/

namespace Sys2Proof.Machine

/-- The raw slot `x[r]` (00_scope.md section 6). -/
def State.x (s : State) (r : Fin 32) : Word := s.gpr[r.val]

/-- The read path: index 0 reads 0 "regardless of any prior write" (40_gpr_ops.md R70, 10_state.md R11). -/
def readGpr (s : State) (r : Fin 32) : Word := if r = 0 then 0#32 else s.x r

/-- The write path: `x[r] <- v`, then `x[0] <- 0` unconditionally (40_gpr_ops.md R71, 10_state.md R11). -/
def State.writeGpr (s : State) (r : Fin 32) (v : Word) : State :=
  { s with gpr := (s.gpr.set r.val v).set 0 0#32 }

/-- The raw value of an entry. -/
def Cop0File.read (f : Cop0File) : Cop0Reg → Word
  | .bpc => f.bpc
  | .bda => f.bda
  | .jumpdest => f.jumpdest
  | .dcic => f.dcic
  | .badVaddr => f.badVaddr
  | .bdam => f.bdam
  | .bpcm => f.bpcm
  | .sr => f.sr
  | .cause => f.cause
  | .epc => f.epc
  | .prid => f.prid

/-- An entry's raw value replaced, all 32 bits (10_state.md R19). The read-only test stands in `execCop0Set`,
from the table's flag. -/
def Cop0File.write (f : Cop0File) (r : Cop0Reg) (v : Word) : Cop0File :=
  match r with
  | .bpc => { f with bpc := v }
  | .bda => { f with bda := v }
  | .jumpdest => { f with jumpdest := v }
  | .dcic => { f with dcic := v }
  | .badVaddr => { f with badVaddr := v }
  | .bdam => { f with bdam := v }
  | .bpcm => { f with bpcm := v }
  | .sr => { f with sr := v }
  | .cause => { f with cause := v }
  | .epc => { f with epc := v }
  | .prid => { f with prid := v }

/-- `c0[r]` (00_scope.md section 6). -/
def State.c0 (s : State) (r : Cop0Reg) : Word := s.cop0.read r

/-- `c0[r] <- v` (00_scope.md section 6). -/
def State.writeCop0 (s : State) (r : Cop0Reg) (v : Word) : State := { s with cop0 := s.cop0.write r v }

/-- `M[a]` (00_scope.md section 6). -/
def State.byte (s : State) (a : Nat) : Byte := s.mem.byteAt a

/-- `MemWrite(o, 4, v)` on the state (20_memory.md R40). -/
def State.writeMem (s : State) (o : Nat) (v : Word) : State := { s with mem := s.mem.writeWord o v }

/-- One diagnostic event leaves the block, after all earlier ones (10_state.md R25). -/
def State.emit (s : State) (d : Diagnostic) : State := { s with diagnostics := s.diagnostics ++ [d] }

/-- The halt latch is set (10_state.md R24). -/
def State.halt (s : State) : State := { s with halted := true }

/-- The operation hands its result to its caller. -/
def State.respond (s : State) (r : Result) : State := { s with responses := s.responses ++ [r] }

/-- The requests not yet taken. -/
def State.withRequests (s : State) (ws : List ReqWord) : State := { s with requests := ws }

/-- Raising a failure signal: advisory emits an event (60_exceptions.md R101), bounds changes nothing (R103),
fatal emits an event and sets the halt latch (R102). None transfers control or saves anything (R107). -/
def raise (sig : Signal) (s : State) : State :=
  match sig with
  | .advisory c o i => s.emit { severity := .advisory, component := c, operation := o, index := i }
  | .bounds _ _ => s
  | .fatal c o i => (s.emit { severity := .fatal, component := c, operation := o, index := i }).halt

/-- The frame of every operation: with `halted = 1` there is no step, whatever the operands (60_exceptions.md
R106, R108); else the operation's state and result, begun and finished in one step (00_scope.md R3). -/
def operate (s : State) (done : State × Result) : Host.Outcome State Fault Refusal :=
  if s.halted then .fault .halted else .next (done.1.respond done.2)

/-- The driver presents a request as the next one the block takes. -/
def present (w : ReqWord) (s : State) : State := s.withRequests (w :: s.requests)

/-- The block takes the driver's next request: the halt latch is tested before anything else (60_exceptions.md
R106), and a reserved `op` spells no operation (30_encoding.md R63). -/
def fetch (s : State) : Host.Outcome (Instr × State) Fault Refusal :=
  if s.halted then .fault .halted
  else
    match s.requests with
    | [] => .refused .noRequest
    | w :: ws =>
      match decode w with
      | .error (.reservedOp op) => .refused (.reservedOp op)
      | .ok i => .next (i, s.withRequests ws)

end Sys2Proof.Machine
end

