-- ==== Sys2Proof/Machine/Cop0.lean ====
section
/-! DEFINITION. The coprocessor-0 register file operations (spec/41_cop0_ops.md R80, R81). -/

namespace Sys2Proof.Machine

/-- `COP0_GET` (41_cop0_ops.md R80): an unrecognised index is fatal, else the value and the canonical name. -/
def execCop0Get (index : Int) (s : State) : Host.Outcome State Fault Refusal :=
  operate s <|
    match cop0Lookup index with
    | none => (raise (.fatal .cop0 .get index) s, .fatalAbort)
    | some e => (s, .cop0Value (s.c0 e.name) e.name)

/-- `COP0_SET` (41_cop0_ops.md R81): an unrecognised index is fatal; a read-only entry drops the value and
answers the read-only label; else all 32 bits are stored. -/
def execCop0Set (index : Int) (value : Word) (s : State) : Host.Outcome State Fault Refusal :=
  operate s <|
    match cop0Lookup index with
    | none => (raise (.fatal .cop0 .set index) s, .fatalAbort)
    | some e =>
      if e.readOnly then (s, .cop0RoDone) else (s.writeCop0 e.name value, .cop0Done e.name)

end Sys2Proof.Machine
end

