-- ==== Sys2Proof/Machine/Gpr.lean ====
section
/-! DEFINITION. The general-register file operations (spec/40_gpr_ops.md R70, R71). -/

namespace Sys2Proof.Machine

/-- `GPR_GET` (40_gpr_ops.md R70): out of [0,31] an advisory diagnostic and the value 0, else the register. -/
def execGprGet (index : Int) (s : State) : Host.Outcome State Fault Refusal :=
  operate s <|
    match gprSlot? index with
    | none => (raise (.advisory .gpr .get index) s, .gprValueW 0#32)
    | some r => (s, .gprValue (readGpr s r))

/-- `GPR_SET` (40_gpr_ops.md R71): out of [0,31] an advisory diagnostic and no mutation (90_conflicts.md C8),
else the register takes the value and register 0 is 0 again. -/
def execGprSet (index : Int) (value : Word) (s : State) : Host.Outcome State Fault Refusal :=
  operate s <|
    match gprSlot? index with
    | none => (raise (.advisory .gpr .set index) s, .gprDoneW)
    | some r => (s.writeGpr r value, .gprDone)

end Sys2Proof.Machine
end

