-- ==== Sys2Proof/Machine/Mem.lean ====
section
/-! DEFINITION. The memory operations (spec/42_mem_ops.md R90, R91). -/

namespace Sys2Proof.Machine

/-- `MEM_LOADWORD` (42_mem_ops.md R90): the bounds test first, then `MemRead`; no alignment test
(20_memory.md R44). -/
def execMemLoadword (offset : Int) (s : State) : Host.Outcome State Fault Refusal :=
  operate s <|
    if InBounds offset then (s, .memValue (s.mem.readWord offset.toNat))
    else (raise (.bounds .load offset) s, .outOfBounds)

/-- `MEM_STOREWORD` (42_mem_ops.md R91): the bounds test first, so a failing store writes no byte
(20_memory.md R43), then `MemWrite`. -/
def execMemStoreword (offset : Int) (value : Word) (s : State) : Host.Outcome State Fault Refusal :=
  operate s <|
    if InBounds offset then (s.writeMem offset.toNat value, .memDone)
    else (raise (.bounds .store offset) s, .outOfBounds)

end Sys2Proof.Machine
end

