-- ==== Sys2Proof/Machine/Dispatch.lean ====
section
/-! DEFINITION. One arm per operation of spec/opcode_table.json. -/

namespace Sys2Proof.Machine

def exec (i : Instr) (s : State) : Host.Outcome State Fault Refusal :=
  match i with
  | .gprGet index => Sys2Proof.Machine.execGprGet index s
  | .gprSet index value => Sys2Proof.Machine.execGprSet index value s
  | .cop0Get index => Sys2Proof.Machine.execCop0Get index s
  | .cop0Set index value => Sys2Proof.Machine.execCop0Set index value s
  | .memLoadword offset => Sys2Proof.Machine.execMemLoadword offset s
  | .memStoreword offset value => Sys2Proof.Machine.execMemStoreword offset value s

end Sys2Proof.Machine
end

