-- ==== Sys2Proof/Machine/Step.lean ====
section
/-! DEFINITION. One step of the block is one operation (spec/00_scope.md R3, 10_state.md R26): take the
driver's next request and run it. -/

namespace Sys2Proof.Machine

/-- One step: the next request is taken, decoded and run. -/
def step (s : State) : Host.Outcome State Fault Refusal :=
  match fetch s with
  | .next (i, t) => exec i t
  | .fault f => .fault f
  | .refused r => .refused r

/-- The state with the word presented as the very next request (log entry 1): the driver's act. A word that
does not fit in 72 bits cannot be presented, and leaves the state as it is. -/
def State.withFetchWord (s : State) (nbits w : Nat) : State :=
  match tableWord? nbits w with
  | some word => present word s
  | none => s

end Sys2Proof.Machine
end

