-- ==== Sys2Proof/Machine/Asm.lean ====
section
/-! DEFINITION. The assembly form of an operation (spec/30_encoding.md R65): the mnemonic, then plain unsigned
numbers, decimal or hexadecimal with `0x`, in the operand order of the call. No part of the machine reads it. -/

namespace Sys2Proof

/-- The character of a decimal digit. -/
def digitChar (n : Nat) : Char := Char.ofNat (48 + n)

/-- The value of a digit in a base of at most 16, capitals or small letters. -/
def digitValue? (base : Nat) (c : Char) : Option Nat :=
  let n := c.toNat
  let v := if 48 ≤ n ∧ n ≤ 57 then n - 48 else if 65 ≤ n ∧ n ≤ 70 then n - 55
    else if 97 ≤ n ∧ n ≤ 102 then n - 87 else 16
  if v < base then some v else none

/-- The decimal digits of a number of at most `fuel` digits. -/
def decimalDigits : Nat → Nat → List Char
  | 0, _ => []
  | fuel + 1, n =>
    if n < 10 then [digitChar n] else decimalDigits fuel (n / 10) ++ [digitChar (n % 10)]

/-- A number below `2 ^ 32` has at most 10 decimal digits. -/
def decimal (n : Nat) : List Char := decimalDigits 10 n

/-- The mnemonics of the opcode table in its order, as characters (30_encoding.md R57, R65). -/
def asmNames : List (List Char) :=
  [ ['G', 'P', 'R', '_', 'G', 'E', 'T'],
    ['G', 'P', 'R', '_', 'S', 'E', 'T'],
    ['C', 'O', 'P', '0', '_', 'G', 'E', 'T'],
    ['C', 'O', 'P', '0', '_', 'S', 'E', 'T'],
    ['M', 'E', 'M', '_', 'L', 'O', 'A', 'D', 'W', 'O', 'R', 'D'],
    ['M', 'E', 'M', '_', 'S', 'T', 'O', 'R', 'E', 'W', 'O', 'R', 'D'] ]

/-- The mnemonic of an operation, as characters. -/
def Instr.asmName (i : Instr) : List Char := asmNames.getD i.opCode.toNat []

/-- The operation as assembly text, its numbers in decimal (30_encoding.md R65). -/
def Instr.render (i : Instr) : List Char :=
  let one := i.asmName ++ ' ' :: decimal i.addr.toNat
  let two := fun v : Word => one ++ ',' :: ' ' :: decimal v.toNat
  match i with
  | .gprGet _ => one
  | .gprSet _ v => two v
  | .cop0Get _ => one
  | .cop0Set _ v => two v
  | .memLoadword _ => one
  | .memStoreword _ v => two v

/-- The value of a row of digits, from the value of those before it. -/
def digitsValue? (base : Nat) : Nat → List Char → Option Nat
  | acc, [] => some acc
  | acc, c :: cs =>
    match digitValue? base c with
    | some d => digitsValue? base (acc * base + d) cs
    | none => none

/-- The value of a numeral: hexadecimal after `0x`, else decimal (30_encoding.md R65). -/
def numeral? : List Char → Option Nat
  | [] => none
  | ['0', 'x'] => none
  | '0' :: 'x' :: ds => digitsValue? 16 0 ds
  | ds => digitsValue? 10 0 ds

/-- A plain unsigned number of 32 bits (30_encoding.md R56, R65). -/
def number? (cs : List Char) : Option Nat :=
  match numeral? cs with
  | some v => if v < Config.addrLimit then some v else none
  | none => none

/-- The text without the blanks around it. -/
def trimBlanks (cs : List Char) : List Char :=
  ((cs.dropWhile (· == ' ')).reverse.dropWhile (· == ' ')).reverse

/-- The pieces of a text between its commas. -/
def commaPieces : List Char → List (List Char)
  | [] => [[]]
  | c :: cs =>
    match commaPieces cs with
    | [] => [[]]
    | p :: ps => if c = ',' then [] :: p :: ps else (c :: p) :: ps

/-- Reading one line of assembly text: the mnemonic picks the row of the opcode table, and the operands are
the ones that row takes (30_encoding.md R65). Any other text is refused, a line with a comment too: R65 lets
names stand in comments and no file of the spec gives a comment syntax, so the model has none (DESIGN CHOICE,
safe, log entry 15, which also names the blanks, the letter case and the number range). -/
def assemble (line : List Char) : Option Instr :=
  let mnemonic := line.takeWhile (· != ' ')
  let operands := (commaPieces (line.dropWhile (· != ' '))).map fun p => number? (trimBlanks p)
  match asmNames.findIdx? (· == mnemonic), operands with
  | some 0, [some i] => some (.gprGet i)
  | some 1, [some i, some v] => some (.gprSet i (BitVec.ofNat 32 v))
  | some 2, [some i] => some (.cop0Get i)
  | some 3, [some i, some v] => some (.cop0Set i (BitVec.ofNat 32 v))
  | some 4, [some o] => some (.memLoadword o)
  | some 5, [some o, some v] => some (.memStoreword o (BitVec.ofNat 32 v))
  | _, _ => none

end Sys2Proof
end

