-- ==== Sys2Proof/Machine/Flags.lean ====
section
/-! DEFINITION. The block has no flags and no condition codes (spec/10_state.md R27), so no operation computes
one. What an operation reports instead is the outcome code of 30_encoding.md R61, written whole here. -/

namespace Sys2Proof.Machine

/-- The four ways an operation ends (60_exceptions.md R100, 30_encoding.md R61). -/
inductive Status where
  | ok | advisory | bounds | fatal
deriving DecidableEq, Repr

/-- The `status` field of a response (30_encoding.md R61), which is also the signal's code (60_exceptions.md
R100). -/
def Status.code : Status → Byte
  | .ok => 0x00#8
  | .advisory => 0x01#8
  | .bounds => 0x02#8
  | .fatal => 0x03#8

/-- The status of a code; 0x04 to 0xFF are never produced, and refused (93_implementation_defined.md U15). -/
def Status.ofCode? (b : Byte) : Option Status :=
  match b.toNat with
  | 0 => some .ok
  | 1 => some .advisory
  | 2 => some .bounds
  | 3 => some .fatal
  | _ => none

/-- The status an operation that raised the signal ends with (60_exceptions.md R101 to R103). -/
def Signal.status : Signal → Status
  | .advisory _ _ _ => .advisory
  | .bounds _ _ => .bounds
  | .fatal _ _ _ => .fatal

/-- The status of a result (30_encoding.md R62). A write to a read-only index is `OK` (R61). -/
def Result.status : Result → Status
  | .gprValue _ => .ok
  | .gprValueW _ => .advisory
  | .gprDone => .ok
  | .gprDoneW => .advisory
  | .cop0Value _ _ => .ok
  | .cop0Done _ => .ok
  | .cop0RoDone => .ok
  | .memValue _ => .ok
  | .memDone => .ok
  | .outOfBounds => .bounds
  | .fatalAbort => .fatal

end Sys2Proof.Machine
end

