-- ==== Sys2Proof/Machine/Response.lean ====
section
/-! DEFINITION. The response format `RSP` (spec/30_encoding.md R60 to R62): the name tag, the response of a
result, packing it into 48 bits and reading it back. -/

namespace Sys2Proof.Machine

/-- What the `name` field says (30_encoding.md R60). The literal strings are open (R18; log entry 8). -/
inductive NameTag where
  | noName
  | canonical (r : Cop0Reg)
  | readOnlyLabel
deriving DecidableEq, Repr

/-- The name tag of 30_encoding.md R60. -/
def NameTag.code : NameTag → Byte
  | .noName => 0x00#8
  | .canonical r => BitVec.ofNat 8 r.index
  | .readOnlyLabel => 0xFF#8

/-- The tag of a code; a code that is not listed is never produced, and refused (93_implementation_defined.md
U15). -/
def NameTag.ofCode? (b : Byte) : Option NameTag :=
  match b.toNat with
  | 0 => some .noName
  | 255 => some .readOnlyLabel
  | n => (cop0Lookup n).map fun e => .canonical e.name

/-- The three fields of a response (30_encoding.md R60). -/
structure Response where
  status : Status
  name   : NameTag
  rdata  : Word
deriving DecidableEq, Repr

/-- The name an operation returns with its result (30_encoding.md R60, R62). -/
def Result.name : Result → NameTag
  | .gprValue _ => .noName
  | .gprValueW _ => .noName
  | .gprDone => .noName
  | .gprDoneW => .noName
  | .cop0Value _ r => .canonical r
  | .cop0Done r => .canonical r
  | .cop0RoDone => .readOnlyLabel
  | .memValue _ => .noName
  | .memDone => .noName
  | .outOfBounds => .noName
  | .fatalAbort => .noName

/-- "the value read, for a reading operation that succeeded (status OK or ADVISORY); 0 otherwise"
(30_encoding.md R60). -/
def Result.rdata : Result → Word
  | .gprValue v => v
  | .gprValueW v => v
  | .gprDone => 0#32
  | .gprDoneW => 0#32
  | .cop0Value v _ => v
  | .cop0Done _ => 0#32
  | .cop0RoDone => 0#32
  | .memValue v => v
  | .memDone => 0#32
  | .outOfBounds => 0#32
  | .fatalAbort => 0#32

/-- The response that carries a result. -/
def Result.response (r : Result) : Response := { status := r.status, name := r.name, rdata := r.rdata }

/-- The response word: `status` 47:40, `name` 39:32, `rdata` 31:0 (30_encoding.md R60). -/
def Response.pack (r : Response) : RspWord := r.status.code ++ (r.name.code ++ r.rdata)

/-- Reading a response word back; a status or a name tag that is never produced is refused. -/
def Response.unpack (w : RspWord) : Option Response :=
  match Status.ofCode? (w.extractLsb' 40 8), NameTag.ofCode? (w.extractLsb' 32 8) with
  | some st, some n => some { status := st, name := n, rdata := w.extractLsb' 0 32 }
  | _, _ => none

end Sys2Proof.Machine
end

