-- ==== Sys2Proof/Safety.lean ====
section
/-! DEFINITION. What the statements speak of: the invariant of the reachable states, runs of operations, the
ends of a run (spec/70_reset_and_hazards.md R124), the table of failure signals (60_exceptions.md R100) and
the latest write of a history (20_memory.md R51). -/

namespace Sys2Proof.Machine

/-- The severity of the diagnostic event that comes with a result, if one does (30_encoding.md R62). -/
def Result.severity? : Result → Option Severity
  | .gprValue _ => none
  | .gprValueW _ => some .advisory
  | .gprDone => none
  | .gprDoneW => some .advisory
  | .cop0Value _ _ => none
  | .cop0Done _ => none
  | .cop0RoDone => none
  | .memValue _ => none
  | .memDone => none
  | .outOfBounds => none
  | .fatalAbort => some .fatal

/-- The 11 recognised coprocessor-0 indices (10_state.md R14), written out apart from the machine's table. -/
def recognisedIndices : List Int := [3, 5, 6, 7, 8, 9, 11, 12, 13, 14, 15]

/-- An event the block can emit: advisory only from the general registers, on an index outside [0,31], and
fatal only from coprocessor 0, on an unrecognised index (60_exceptions.md R100, R104, R105). -/
abbrev Diagnostic.Proper (d : Diagnostic) : Prop :=
  (d.severity = .advisory ∧ d.component = .gpr ∧ ¬ (0 ≤ d.index ∧ d.index ≤ 31)) ∨
  (d.severity = .fatal ∧ d.component = .cop0 ∧ d.index ∉ recognisedIndices)

/-- What holds in every reachable state. -/
structure State.Inv (s : State) : Prop where
  /-- "`value(0) == 0` holds at all times" (10_state.md R11). -/
  regZero : s.x 0 = 0#32
  /-- Memory is in its canonical form and inside `M[0..C-1]`. -/
  memWf : s.mem.wf
  /-- The halt latch is set exactly when an operation has ended in `FatalAbort` (10_state.md R24). -/
  latch : s.halted = true ↔ Result.fatalAbort ∈ s.responses
  /-- Nothing is answered after a `FatalAbort` (60_exceptions.md R108). -/
  abortLast : Result.fatalAbort ∉ s.responses.dropLast
  /-- The events are those of the results, in the order of the operations (10_state.md R25). -/
  stream : s.diagnostics.map (·.severity) = s.responses.filterMap Result.severity?
  /-- Every event is one the block can emit. -/
  proper : ∀ d ∈ s.diagnostics, d.Proper

/-- A sequence of operations, one after the other, stopping at the first that has no step. -/
def runOps : List Instr → State → Host.Outcome State Fault Refusal
  | [], s => .next s
  | i :: is, s =>
    match exec i s with
    | .next t => runOps is t
    | .fault f => .fault f
    | .refused r => .refused r

/-- `k` steps, stopping at the first request that has no step (00_scope.md R3): the block's requests are taken
one at a time, oldest first. -/
def runSteps : Nat → State → Host.Outcome State Fault Refusal
  | 0, s => .next s
  | k + 1, s =>
    match step s with
    | .next t => runSteps k t
    | .fault f => .fault f
    | .refused r => .refused r

/-- A run has ended successfully: the driver has no more requests and `halted = 0` (70_reset_and_hazards.md
R124). -/
abbrev State.Finished (s : State) : Prop := s.requests = [] ∧ s.halted = false

/-- A run has ended aborted (70_reset_and_hazards.md R124). -/
abbrev State.Aborted (s : State) : Prop := s.halted = true

end Sys2Proof.Machine

namespace Sys2Proof

open Machine

/-- The component an operation belongs to (00_scope.md R2, 30_encoding.md R57). -/
inductive Component where
  | generalRegisters | systemControl | memory
deriving DecidableEq, Repr

/-- 30_encoding.md R57, the table's column "component". -/
def Instr.component : Instr → Component
  | .gprGet _ => .generalRegisters
  | .gprSet _ _ => .generalRegisters
  | .cop0Get _ => .systemControl
  | .cop0Set _ _ => .systemControl
  | .memLoadword _ => .memory
  | .memStoreword _ _ => .memory

/-- Two states agree on one component's storage. -/
def Machine.State.AgreeOn (s t : State) : Component → Prop
  | .generalRegisters => s.gpr = t.gpr
  | .systemControl => s.cop0 = t.cop0
  | .memory => s.mem = t.mem

/-- The table of 60_exceptions.md R100: how an operation ends, by its operands alone. -/
def Instr.tabledStatus : Instr → Status
  | .gprGet i => if 0 ≤ i ∧ i ≤ 31 then .ok else .advisory
  | .gprSet i _ => if 0 ≤ i ∧ i ≤ 31 then .ok else .advisory
  | .cop0Get i => if i ∈ recognisedIndices then .ok else .fatal
  | .cop0Set i _ => if i ∈ recognisedIndices then .ok else .fatal
  | .memLoadword o => if 0 ≤ o ∧ o + 3 < 0x200000 then .ok else .bounds
  | .memStoreword o _ => if 0 ≤ o ∧ o + 3 < 0x200000 then .ok else .bounds

/-- The event an operation emits, by its operands alone (60_exceptions.md R100, R105). -/
def Instr.tabledEvents : Instr → List Diagnostic
  | .gprGet i => if 0 ≤ i ∧ i ≤ 31 then [] else [⟨.advisory, .gpr, .get, i⟩]
  | .gprSet i _ => if 0 ≤ i ∧ i ≤ 31 then [] else [⟨.advisory, .gpr, .set, i⟩]
  | .cop0Get i => if i ∈ recognisedIndices then [] else [⟨.fatal, .cop0, .get, i⟩]
  | .cop0Set i _ => if i ∈ recognisedIndices then [] else [⟨.fatal, .cop0, .set, i⟩]
  | .memLoadword _ => []
  | .memStoreword _ _ => []

/-- What an operation leaves in the byte at offset `a`, from what was there: a store in bounds that covers
`a` leaves its own lane there (20_memory.md R40, R51). -/
def Instr.leavesByte (a : Nat) (before : Byte) : Instr → Byte
  | .gprGet _ => before
  | .gprSet _ _ => before
  | .cop0Get _ => before
  | .cop0Set _ _ => before
  | .memLoadword _ => before
  | .memStoreword o v =>
    if 0 ≤ o ∧ o + 3 < 0x200000 ∧ o ≤ a ∧ a ≤ o + 3 then BitVec.ofNat 8 (v.toNat / 256 ^ (a - o.toNat))
    else before

/-- What an operation leaves in the general register `r ≠ 0` (40_gpr_ops.md R71). -/
def Instr.leavesGpr (r : Fin 32) (before : Word) : Instr → Word
  | .gprGet _ => before
  | .gprSet i v => if i = (r.val : Int) then v else before
  | .cop0Get _ => before
  | .cop0Set _ _ => before
  | .memLoadword _ => before
  | .memStoreword _ _ => before

/-- What an operation leaves in the coprocessor-0 entry `r` (41_cop0_ops.md R81): the read-only entries are
never written. -/
def Instr.leavesCop0 (r : Cop0Reg) (before : Word) : Instr → Word
  | .gprGet _ => before
  | .gprSet _ _ => before
  | .cop0Get _ => before
  | .cop0Set i v => if i = (r.index : Int) ∧ r ≠ .badVaddr ∧ r ≠ .prid then v else before
  | .memLoadword _ => before
  | .memStoreword _ _ => before

end Sys2Proof
end

