-- ==== Sys2Proof/Certificates/Slice0/Obligations.lean ====
section
/-! DEFINITION. The statements for the provers, from the numbered rules of spec/. -/

open Sys2Proof Sys2Proof.Machine

/-! ## Encoding -/

/-- 30_encoding.md R64, the round trip, which the spec marks as derived; the request format is the spec's own
decision D3 (log entry 11). -/
def Obligations.DecodeOfEncodeGivesBack : Prop :=
  ∀ i : Instr, i.WellFormed → decode (encode i) = .ok i

/-- 30_encoding.md R58, R59, R64, the other direction: a word that decodes is the canonical word of a
well-formed operation, but for the `wdata` field of a reading operation, which the canonical word has zero. -/
def Obligations.EncodeOfDecodeIsCanonical : Prop :=
  ∀ (w : ReqWord) (i : Instr), decode w = .ok i →
    i.WellFormed ∧
    encode i = (if w.extractLsb' 64 8 ∈ [0x00#8, 0x02#8, 0x04#8] then w &&& 0xFFFFFFFFFF00000000#72 else w)

/-- 30_encoding.md R59: the `wdata` field of the three reading operations "is ignored". -/
def Obligations.ReadingRequestsIgnoreWdata : Prop :=
  ∀ (op : BitVec 8) (addr d d' : Word), op ∈ [0x00#8, 0x02#8, 0x04#8] →
    decode (op ++ (addr ++ d)) = decode (op ++ (addr ++ d'))

/-- 30_encoding.md R63 and R64: `op` 0x06 to 0xFF is refused by name, and every other word decodes. -/
def Obligations.ExactlyReservedOpsRefused : Prop :=
  ∀ w : ReqWord,
    (6 ≤ (w.extractLsb' 64 8).toNat → decode w = .error (.reservedOp (w.extractLsb' 64 8))) ∧
    ((w.extractLsb' 64 8).toNat < 6 → ∃ i, decode w = .ok i)

/-- 30_encoding.md R64: "every 72-bit word either matches exactly one row or has a reserved `op`", and the
decoder gives the operation of the row that matches. -/
def Obligations.OneTableRowPerWord : Prop :=
  ∀ w : ReqWord,
    ((w.extractLsb' 64 8).toNat < 6 ↔ ∃ row ∈ opTable, row.Matches w) ∧
    (∀ row ∈ opTable, ∀ row' ∈ opTable, row.Matches w → row'.Matches w → row = row') ∧
    (∀ row ∈ opTable, ∀ i, row.Matches w → decode w = .ok i → row.mnemonic = i.mnemonic)

/-- The worked encodings of 30_encoding.md R66, and the reserved words V76, V77 and V79 of
95_test_vectors.md. -/
def Obligations.WorkedEncodingsDecode : Prop :=
  decode 0x000000000400000000#72 = .ok (.gprGet 4) ∧
  decode 0x010000000400000064#72 = .ok (.gprSet 4 100#32) ∧
  decode 0x020000000C00000000#72 = .ok (.cop0Get 12) ∧
  decode 0x030000000E80001000#72 = .ok (.cop0Set 14 0x80001000#32) ∧
  decode 0x040000001000000000#72 = .ok (.memLoadword 0x10) ∧
  decode 0x0500000010DEADBEEF#72 = .ok (.memStoreword 0x10 0xDEADBEEF#32) ∧
  decode 0x060000000000000000#72 = .error (.reservedOp 0x06#8) ∧
  decode 0xFFFFFFFFFFFFFFFFFF#72 = .error (.reservedOp 0xFF#8) ∧
  decode 0x800000000400000000#72 = .error (.reservedOp 0x80#8)

/-- 30_encoding.md R65: the assembly text of a well-formed operation reads back as that operation. The exact
blanks of the text are the model's choice (log entry 15). -/
def Obligations.AssembleOfRenderGivesBack : Prop :=
  ∀ i : Instr, i.WellFormed → assemble i.render = some i

/-- 30_encoding.md R60, R61: a response word reads back as its three fields, and a word whose status or name
tag is never produced is refused (93_implementation_defined.md U15). The format is the spec's own decision D4. -/
def Obligations.ResponseWordsReadBack : Prop :=
  (∀ r : Response, Response.unpack r.pack = some r) ∧
  (∀ w : RspWord, (∃ r, Response.unpack w = some r) ↔
    (w.extractLsb' 40 8).toNat < 4 ∧
    (w.extractLsb' 32 8).toNat ∈ [0x00, 3, 5, 6, 7, 8, 9, 11, 12, 13, 14, 15, 0xFF])

/-- 30_encoding.md R62, the right-hand column: the response word of each result. -/
def Obligations.ResultsPackAsTabled : Prop :=
  ∀ (v : Word) (r : Cop0Reg),
    (Result.gprValue v).response.pack = 0x00#8 ++ (0x00#8 ++ v) ∧
    (Result.gprValueW 0#32).response.pack = 0x010000000000#48 ∧
    Result.gprDone.response.pack = 0x000000000000#48 ∧
    Result.gprDoneW.response.pack = 0x010000000000#48 ∧
    (Result.cop0Value v r).response.pack = 0x00#8 ++ (BitVec.ofNat 8 r.index ++ v) ∧
    (Result.cop0Done r).response.pack = 0x00#8 ++ (BitVec.ofNat 8 r.index ++ 0#32) ∧
    Result.cop0RoDone.response.pack = 0x00FF00000000#48 ∧
    (Result.memValue v).response.pack = 0x00#8 ++ (0x00#8 ++ v) ∧
    Result.memDone.response.pack = 0x000000000000#48 ∧
    Result.outOfBounds.response.pack = 0x020000000000#48 ∧
    Result.fatalAbort.response.pack = 0x030000000000#48

/-! ## Steps and runs -/

/-- 10_state.md R26, 30_encoding.md R55: a step takes the oldest request and runs the operation it spells. The
list of requests is the model's (log entry 1). -/
def Obligations.StepRunsDecodedRequest : Prop :=
  ∀ (s : State) (w : ReqWord) (ws : List ReqWord) (i : Instr),
    s.halted = false → s.requests = w :: ws → decode w = .ok i →
    step s = exec i { s with requests := ws }

/-- 30_encoding.md R55, R56: a 72-bit word presented to the block runs as the very next operation, in the
state it was presented in. -/
def Obligations.PresentedWordRunsNext : Prop :=
  ∀ (s : State) (w : Nat) (i : Instr),
    s.halted = false → w < 2 ^ 72 → decodeTableWord 72 w = some i →
    step (s.withFetchWord 72 w) = exec i s

/-- 30_encoding.md R63: a request with a reserved `op` has no step; the model refuses it by name. -/
def Obligations.ReservedRequestRefused : Prop :=
  ∀ (s : State) (w : ReqWord) (ws : List ReqWord),
    s.halted = false → s.requests = w :: ws → 6 ≤ (w.extractLsb' 64 8).toNat →
    step s = .refused (.reservedOp (w.extractLsb' 64 8))

/-- 60_exceptions.md R106, R108: while `halted = 1` no request has a step, whatever it is. The latch is the
spec's own decision D8, and `Fault.halted` is the model's way to say "no step" (log entry 2). -/
def Obligations.HaltedBlockHasNoStep : Prop :=
  ∀ s : State, s.halted = true → step s = .fault .halted ∧ ∀ i : Instr, exec i s = .fault .halted

/-- 70_reset_and_hazards.md R128: "every operation presented to a non-halted block completes". -/
def Obligations.EveryOperationCompletes : Prop :=
  ∀ (i : Instr) (s : State), s.halted = false → ∃ t, exec i s = .next t

/-- 00_scope.md R3, 10_state.md R25: one step takes one request, answers once, and emits at most one
diagnostic event, after all earlier ones. -/
def Obligations.StepAnswersOnce : Prop :=
  ∀ s t : State, step s = .next t →
    ∃ (w : ReqWord) (i : Instr) (r : Result),
      s.requests = w :: t.requests ∧ decode w = .ok i ∧ t.responses = s.responses ++ [r] ∧
      (r.severity? = none ∧ t.diagnostics = s.diagnostics ∨
        ∃ d : Diagnostic, r.severity? = some d.severity ∧ d.index = i.addr ∧
          t.diagnostics = s.diagnostics ++ [d])

/-- Every step keeps the invariant of the reachable states (10_state.md R11, R21, R24, R25; 60_exceptions.md
R104, R108). The canonical form of memory and the record of responses are the model's (log entries 6, 7). -/
def Obligations.StepKeepsInvariant : Prop :=
  ∀ s t : State, s.Inv → step s = .next t → t.Inv

/-- The invariant holds after reset, for every choice of the open reset parameters (10_state.md R29 to R32). -/
def Obligations.ResetMeetsInvariant : Prop :=
  ∀ p : ResetParams, (State.resetWith p).Inv

/-- 00_scope.md R3, 20_memory.md R51 (a): stepping through the driver's requests does the operations in the
order issued, each completely before the next, and stops where an operation has no step. The list of requests
is the model's (log entry 1). -/
def Obligations.RequestsRunInOrder : Prop :=
  ∀ (ops : List Instr) (rest : List ReqWord) (s : State),
    (∀ i ∈ ops, i.WellFormed) → s.requests = ops.map encode ++ rest →
    runSteps ops.length s = runOps ops { s with requests := rest }

/-- 70_reset_and_hazards.md R124, 60_exceptions.md R108: from a running block a sequence of operations comes
to its end exactly when no operation but the last raises Fatal, and stops halted otherwise. -/
def Obligations.RunEndsAtFirstFatal : Prop :=
  ∀ (ops : List Instr) (s : State), s.halted = false →
    ((∀ i ∈ ops.dropLast, i.tabledStatus ≠ .fatal) →
      ∃ t, runOps ops s = .next t ∧ (t.halted = true ↔ ∃ i ∈ ops, i.tabledStatus = .fatal)) ∧
    ((∃ i ∈ ops.dropLast, i.tabledStatus = .fatal) → runOps ops s = .fault .halted)

/-! ## Failure signals and the three components -/

/-- 60_exceptions.md R100: each operation ends with the status of the table, emits exactly the event of the
table, and the halt latch is set exactly by Fatal. Codes and event content are the spec's own decisions D4,
D13; the latch is D8. -/
def Obligations.SignalsAreAsTabled : Prop :=
  ∀ (i : Instr) (s t : State), exec i s = .next t →
    (∃ r, t.responses = s.responses ++ [r] ∧ r.status = i.tabledStatus) ∧
    t.diagnostics = s.diagnostics ++ i.tabledEvents ∧
    (t.halted = true ↔ i.tabledStatus = .fatal)

/-- 60_exceptions.md R107, 20_memory.md R43: an operation that raises a signal changes no register, no
coprocessor-0 entry (SR, cause, EPC and BadVaddr among them) and no byte of memory. -/
def Obligations.FailuresChangeNoStorage : Prop :=
  ∀ (i : Instr) (s : State), s.halted = false → i.tabledStatus ≠ .ok →
    ∃ t, exec i s = .next t ∧ t.gpr = s.gpr ∧ t.cop0 = s.cop0 ∧ t.mem = s.mem ∧ t.requests = s.requests

/-- 00_scope.md R2, 10_state.md R13, R20, R22, R34: an operation on one component changes the storage of that
component only, and only a coprocessor-0 operation sets the halt latch; the three reading operations change
no storage at all; no operation takes a request. -/
def Obligations.OperationsKeepOtherComponents : Prop :=
  ∀ (i : Instr) (s t : State), exec i s = .next t →
    (i.component ≠ .generalRegisters → t.gpr = s.gpr) ∧
    (i.component ≠ .systemControl → t.cop0 = s.cop0 ∧ t.halted = s.halted) ∧
    (i.component ≠ .memory → t.mem = s.mem) ∧
    ((∃ a, i = .gprGet a ∨ i = .cop0Get a ∨ i = .memLoadword a) →
      t.gpr = s.gpr ∧ t.cop0 = s.cop0 ∧ t.mem = s.mem) ∧
    t.requests = s.requests

/-- 00_scope.md R2: an operation "never reads" another component: of two running blocks that agree on its own
component it gives the same answer, the same event and the same storage of that component. -/
def Obligations.OperationsReadOwnComponentOnly : Prop :=
  ∀ (i : Instr) (s s' t : State), s.AgreeOn s' i.component → s.halted = s'.halted → exec i s = .next t →
    ∃ (t' : State) (r : Result) (ds : List Diagnostic),
      exec i s' = .next t' ∧ t.AgreeOn t' i.component ∧ t.halted = t'.halted ∧
      t.responses = s.responses ++ [r] ∧ t'.responses = s'.responses ++ [r] ∧
      t.diagnostics = s.diagnostics ++ ds ∧ t'.diagnostics = s'.diagnostics ++ ds

/-! ## General registers -/

/-- 40_gpr_ops.md R70: what `GPR_GET` answers and leaves, with its op code, for every index: out of [0,31] an advisory event
and 0, index 0 the value 0 whatever the slot holds, else the register; nothing else changes. The event's
content is the spec's own decision D13. -/
def Obligations.GprGetAnswersRegister : Prop :=
  (∀ addr wdata : Word, decode (0x00#8 ++ (addr ++ wdata)) = .ok (.gprGet addr.toNat)) ∧
  ∀ (index : Int) (s : State), s.halted = false →
    (¬ (0 ≤ index ∧ index ≤ 31) →
      exec (.gprGet index) s = .next { s with
        responses := s.responses ++ [.gprValueW 0#32]
        diagnostics := s.diagnostics ++ [⟨.advisory, .gpr, .get, index⟩] }) ∧
    (index = 0 → exec (.gprGet index) s = .next { s with responses := s.responses ++ [.gprValue 0#32] }) ∧
    (∀ r : Fin 32, r ≠ 0 → index = (r.val : Int) →
      exec (.gprGet index) s = .next { s with responses := s.responses ++ [.gprValue (s.x r)] })

/-- 40_gpr_ops.md R71: what `GPR_SET` stores and leaves, with its op code, for every index: in [0,31] the register takes the
value and register 0 is 0 (a write to index 0 is accepted and stores nothing else); out of [0,31] an advisory
event and no mutation. The event's content is the spec's own decision D13. -/
def Obligations.GprSetStoresRegister : Prop :=
  (∀ addr wdata : Word, decode (0x01#8 ++ (addr ++ wdata)) = .ok (.gprSet addr.toNat wdata)) ∧
  ∀ (index : Int) (value : Word) (s : State), s.halted = false →
    ∃ t, exec (.gprSet index value) s = .next t ∧
      (∀ r : Fin 32, r ≠ 0 → t.x r = if index = (r.val : Int) then value else s.x r) ∧
      (0 ≤ index ∧ index ≤ 31 →
        t.x 0 = 0#32 ∧ t.responses = s.responses ++ [.gprDone] ∧ t.diagnostics = s.diagnostics) ∧
      (¬ (0 ≤ index ∧ index ≤ 31) →
        t.x 0 = s.x 0 ∧ t.responses = s.responses ++ [.gprDoneW] ∧
        t.diagnostics = s.diagnostics ++ [⟨.advisory, .gpr, .set, index⟩]) ∧
      t.cop0 = s.cop0 ∧ t.mem = s.mem ∧ t.halted = false ∧ t.requests = s.requests

/-- 10_state.md R11: register 0 is zero after reset; an operation that finds it zero leaves it zero; a write
in range makes it zero even where it was not, whatever its target; and reading index 0 gives 0 even where
the slot is not zero. -/
def Obligations.RegisterZeroIsHardwired : Prop :=
  (∀ p : ResetParams, (State.resetWith p).x 0 = 0#32) ∧
  (∀ (i : Instr) (s t : State), s.x 0 = 0#32 → exec i s = .next t → t.x 0 = 0#32) ∧
  (∀ (index : Int) (v : Word) (s t : State), 0 ≤ index → index ≤ 31 →
    exec (.gprSet index v) s = .next t → t.x 0 = 0#32) ∧
  (∀ s : State, s.halted = false →
    exec (.gprGet 0) s = .next { s with responses := s.responses ++ [.gprValue 0#32] })

/-- 10_state.md R13: "∀ i ∈ [1,31], ∀ v: `SetRegister(i, v)` then `GetRegister(i) == v`", the read being the
very next operation; and the last of two writes wins (40_gpr_ops.md R72). -/
def Obligations.GprReadAfterWrite : Prop :=
  ∀ (r : Fin 32) (v w : Word) (s : State), r ≠ 0 → s.halted = false →
    ∃ t, runOps [.gprSet r.val w, .gprSet r.val v, .gprGet r.val] s = .next t ∧
      t.responses = s.responses ++ [.gprDone, .gprDone, .gprValue v]

/-- 40_gpr_ops.md R71, R72, over any sequence of operations: a general register other than 0 holds the value
of the latest in-range write to it, or what it held before. -/
def Obligations.GprHoldsLatestWrite : Prop :=
  ∀ (ops : List Instr) (s t : State) (r : Fin 32), r ≠ 0 → runOps ops s = .next t →
    t.x r = ops.foldl (fun v i => i.leavesGpr r v) (s.x r)

/-! ## Coprocessor 0 -/

/-- 41_cop0_ops.md R82: the table recognises exactly the 11 indices, of which exactly 8 and 15 are read-only,
each entry's name is that of the index it stands at, and both operations go by the entry the table gives: its
name is the one answered and the entry reached, its flag alone decides whether a write is stored, and without
an entry both abort. -/
def Obligations.Cop0TableIsAsListed : Prop :=
  ∀ index : Int,
    ((∃ e, cop0Lookup index = some e) ↔
      index ∈ ([3, 5, 6, 7, 8, 9, 11, 12, 13, 14, 15] : List Int)) ∧
    ((∃ e, cop0Lookup index = some e ∧ e.readOnly = true) ↔ index ∈ ([8, 15] : List Int)) ∧
    (∀ e, cop0Lookup index = some e → (e.name.index : Int) = index) ∧
    ∀ (value : Word) (s : State), s.halted = false →
      (∀ e, cop0Lookup index = some e →
        (∃ t, exec (.cop0Get index) s = .next t ∧
          t.responses = s.responses ++ [.cop0Value (s.c0 e.name) e.name]) ∧
        ∃ t, exec (.cop0Set index value) s = .next t ∧
          t.responses = s.responses ++ [if e.readOnly then .cop0RoDone else .cop0Done e.name] ∧
          ∀ q : Cop0Reg, t.c0 q = if q = e.name ∧ e.readOnly = false then value else s.c0 q) ∧
      (cop0Lookup index = none →
        (∃ t, exec (.cop0Get index) s = .next t ∧ t.responses = s.responses ++ [.fatalAbort]) ∧
        ∃ t, exec (.cop0Set index value) s = .next t ∧ t.responses = s.responses ++ [.fatalAbort])

/-- 41_cop0_ops.md R80: what `COP0_GET` answers and leaves, with its op code, for every index: the value and the canonical name
of a recognised one, changing nothing else; on an unrecognised index a fatal event, the halt latch and
`FatalAbort`, changing nothing else. Latch and event content are the spec's own decisions D8, D13. -/
def Obligations.Cop0GetAnswersEntry : Prop :=
  (∀ addr wdata : Word, decode (0x02#8 ++ (addr ++ wdata)) = .ok (.cop0Get addr.toNat)) ∧
  ∀ (index : Int) (s : State), s.halted = false →
    (∀ r : Cop0Reg, index = (r.index : Int) →
      exec (.cop0Get index) s = .next { s with responses := s.responses ++ [.cop0Value (s.c0 r) r] }) ∧
    (index ∉ recognisedIndices →
      exec (.cop0Get index) s = .next { s with
        halted := true
        responses := s.responses ++ [.fatalAbort]
        diagnostics := s.diagnostics ++ [⟨.fatal, .cop0, .get, index⟩] })

/-- 41_cop0_ops.md R81: what `COP0_SET` stores and leaves, with its op code, for every index: a writable entry takes all 32
bits and no other entry changes; index 8 or 15 changes nothing and answers the read-only label; an
unrecognised index is fatal and stores nothing. Latch and event content are the spec's own decisions D8, D13. -/
def Obligations.Cop0SetStoresEntry : Prop :=
  (∀ addr wdata : Word, decode (0x03#8 ++ (addr ++ wdata)) = .ok (.cop0Set addr.toNat wdata)) ∧
  ∀ (index : Int) (value : Word) (s : State), s.halted = false →
    (∀ r : Cop0Reg, r ≠ .badVaddr → r ≠ .prid → index = (r.index : Int) →
      ∃ t, exec (.cop0Set index value) s = .next t ∧
        (∀ q : Cop0Reg, t.c0 q = if q = r then value else s.c0 q) ∧
        t.gpr = s.gpr ∧ t.mem = s.mem ∧ t.halted = false ∧ t.requests = s.requests ∧
        t.responses = s.responses ++ [.cop0Done r] ∧ t.diagnostics = s.diagnostics) ∧
    (index = 8 ∨ index = 15 →
      exec (.cop0Set index value) s = .next { s with responses := s.responses ++ [.cop0RoDone] }) ∧
    (index ∉ recognisedIndices →
      exec (.cop0Set index value) s = .next { s with
        halted := true
        responses := s.responses ++ [.fatalAbort]
        diagnostics := s.diagnostics ++ [⟨.fatal, .cop0, .set, index⟩] })

/-- 10_state.md R19, 60_exceptions.md R111: a writable entry (SR, cause and EPC among them) reads back exactly
what was last written, all 32 bits, with its canonical name. -/
def Obligations.Cop0ReadAfterWrite : Prop :=
  ∀ (r : Cop0Reg) (v : Word) (s : State), r ≠ .badVaddr → r ≠ .prid → s.halted = false →
    ∃ t, runOps [.cop0Set r.index v, .cop0Get r.index] s = .next t ∧
      t.responses = s.responses ++ [.cop0Done r, .cop0Value v r]

/-- 10_state.md R16, 41_cop0_ops.md R81: a write to a read-only index "leaves `GetRegister(i)` unchanged and
returns the read-only label". -/
def Obligations.ReadOnlyEntryRejectsWrite : Prop :=
  ∀ (r : Cop0Reg) (v : Word) (s : State), r = .badVaddr ∨ r = .prid → s.halted = false →
    ∃ t, runOps [.cop0Set r.index v, .cop0Get r.index] s = .next t ∧
      t.responses = s.responses ++ [.cop0RoDone, .cop0Value (s.c0 r) r]

/-- 41_cop0_ops.md R81, R83, 10_state.md R16, over any sequence of operations: a writable entry holds the
latest value written to it, or what it held before; BadVaddr and PRID hold what they held before. -/
def Obligations.Cop0HoldsLatestWrite : Prop :=
  ∀ (ops : List Instr) (s t : State) (r : Cop0Reg), runOps ops s = .next t →
    t.c0 r = ops.foldl (fun v i => i.leavesCop0 r v) (s.c0 r)

/-- 10_state.md R16: a write to BadVaddr or PRID is accepted and mutates no state; the other nine entries are
writable; `COP0_SET` is the only write path of any entry; no step changes `c0[8]` or `c0[15]`, from any state;
and after any operations from reset they are their reset values, for every choice of the open reset parameters.
That no second, hardware-side write path exists is the spec's own decision D22 (log entry 14). -/
def Obligations.ReadOnlyEntriesArePermanent : Prop :=
  (∀ (r : Cop0Reg) (v : Word) (s : State), r = .badVaddr ∨ r = .prid → s.halted = false →
    ∃ t, exec (.cop0Set r.index v) s = .next t ∧ t.cop0 = s.cop0 ∧ t.gpr = s.gpr ∧ t.mem = s.mem ∧
      t.halted = s.halted ∧ t.requests = s.requests ∧ t.diagnostics = s.diagnostics) ∧
  (∀ (r : Cop0Reg) (v : Word) (s : State), r ≠ .badVaddr → r ≠ .prid → s.halted = false →
    ∃ t, exec (.cop0Set r.index v) s = .next t ∧ t.c0 r = v) ∧
  (∀ (i : Instr) (s t : State), (∀ (a : Int) (v : Word), i ≠ .cop0Set a v) → exec i s = .next t →
    t.cop0 = s.cop0) ∧
  (∀ s t : State, step s = .next t → t.c0 .badVaddr = s.c0 .badVaddr ∧ t.c0 .prid = s.c0 .prid) ∧
  (∀ (p : ResetParams) (ops : List Instr) (t : State), runOps ops (State.resetWith p) = .next t →
    t.c0 .badVaddr = p.cop0.badVaddr ∧ t.c0 .prid = p.cop0.prid)

/-- 41_cop0_ops.md R83 law 4: after an operation on an unrecognised index no later operation has a step. -/
def Obligations.UnrecognisedIndexEndsRun : Prop :=
  ∀ (index : Int) (v : Word) (s : State), s.halted = false → index ∉ recognisedIndices →
    ∀ i, i = Instr.cop0Get index ∨ i = Instr.cop0Set index v →
      ∃ t, exec i s = .next t ∧ t.Aborted ∧ step t = .fault .halted ∧
        ∀ j : Instr, runOps [i, j] s = .fault .halted

/-! ## Memory -/

/-- 20_memory.md R41, R42, R43: an offset is in bounds exactly from 0 to 0x1FFFFC, on unbounded integers (the
spec's own decision D10); out of bounds both operations end with the typed failure and nothing else. That a
failing access has no partial effect is the spec's own decision D9 (log entry 12, unsafe). -/
def Obligations.BoundsTestIsUnbounded : Prop :=
  ∀ (offset : Int) (value : Word) (s : State), s.halted = false →
    (0 ≤ offset ∧ offset ≤ 0x1FFFFC →
      (∃ t v, exec (.memLoadword offset) s = .next t ∧ t.responses = s.responses ++ [.memValue v]) ∧
      (∃ t, exec (.memStoreword offset value) s = .next t ∧ t.responses = s.responses ++ [.memDone])) ∧
    (offset < 0 ∨ 0x1FFFFC < offset →
      exec (.memLoadword offset) s = .next { s with responses := s.responses ++ [.outOfBounds] } ∧
      exec (.memStoreword offset value) s = .next { s with responses := s.responses ++ [.outOfBounds] })

/-- 42_mem_ops.md R90, 20_memory.md R44: `MEM_LOADWORD`, with its op code: at every in-bounds offset, aligned or not, it answers the
four bytes and changes nothing; out of bounds it answers the typed failure and changes nothing. -/
def Obligations.LoadWordAnswersBytes : Prop :=
  (∀ addr wdata : Word, decode (0x04#8 ++ (addr ++ wdata)) = .ok (.memLoadword addr.toNat)) ∧
  ∀ (offset : Int) (s : State), s.halted = false →
    (0 ≤ offset ∧ offset + 3 < 0x200000 →
      exec (.memLoadword offset) s = .next { s with
        responses := s.responses ++ [.memValue
          (s.byte (offset.toNat + 3) ++ s.byte (offset.toNat + 2) ++ s.byte (offset.toNat + 1) ++
            s.byte offset.toNat)] }) ∧
    (¬ (0 ≤ offset ∧ offset + 3 < 0x200000) →
      exec (.memLoadword offset) s = .next { s with responses := s.responses ++ [.outOfBounds] })

/-- 20_memory.md R39: the value loaded is M[o] + 2^8 M[o+1] + 2^16 M[o+2] + 2^24 M[o+3]. -/
def Obligations.LoadComposesLittleEndian : Prop :=
  ∀ (o : Nat) (s : State), s.halted = false → o + 3 < 0x200000 →
    ∃ (t : State) (v : Word), exec (.memLoadword o) s = .next t ∧
      t.responses = s.responses ++ [.memValue v] ∧
      v.toNat = (s.byte o).toNat + 2 ^ 8 * (s.byte (o + 1)).toNat + 2 ^ 16 * (s.byte (o + 2)).toNat +
        2 ^ 24 * (s.byte (o + 3)).toNat

/-- 42_mem_ops.md R91, 20_memory.md R44: `MEM_STOREWORD`, with its op code: at every in-bounds offset, aligned or not, it writes
exactly the four bytes at `offset` and nothing else; out of bounds it writes no byte. That a memory is read
through its canonical form is the model's (log entry 7). -/
def Obligations.StoreWordWritesBytes : Prop :=
  (∀ addr wdata : Word, decode (0x05#8 ++ (addr ++ wdata)) = .ok (.memStoreword addr.toNat wdata)) ∧
  ∀ (offset : Int) (value : Word) (s : State), s.halted = false → s.mem.wf →
    (0 ≤ offset ∧ offset + 3 < 0x200000 →
      ∃ t, exec (.memStoreword offset value) s = .next t ∧
        (∀ a : Nat, a < offset.toNat ∨ offset.toNat + 3 < a → t.byte a = s.byte a) ∧
        (∀ k : Nat, k < 4 → t.byte (offset.toNat + k) = value.extractLsb' (8 * k) 8) ∧
        t.mem.wf ∧ t.gpr = s.gpr ∧ t.cop0 = s.cop0 ∧ t.halted = false ∧ t.requests = s.requests ∧
        t.responses = s.responses ++ [.memDone] ∧ t.diagnostics = s.diagnostics) ∧
    (¬ (0 ≤ offset ∧ offset + 3 < 0x200000) →
      exec (.memStoreword offset value) s = .next { s with responses := s.responses ++ [.outOfBounds] })

/-- 20_memory.md R40: the four bytes written are the little-endian bytes of the value, byte `o + k` being
bits 8k+7 to 8k, and "no other byte of `M` changes". -/
def Obligations.StoreDecomposesLittleEndian : Prop :=
  ∀ (o : Nat) (v : Word) (s : State), s.halted = false → s.mem.wf → o + 3 < 0x200000 →
    ∃ t, exec (.memStoreword o v) s = .next t ∧
      (t.byte o).toNat = v.toNat % 256 ∧
      (t.byte (o + 1)).toNat = v.toNat / 2 ^ 8 % 256 ∧
      (t.byte (o + 2)).toNat = v.toNat / 2 ^ 16 % 256 ∧
      (t.byte (o + 3)).toNat = v.toNat / 2 ^ 24 % 256 ∧
      ∀ a : Nat, a < o ∨ o + 3 < a → t.byte a = s.byte a

/-- 20_memory.md R50: a load at any offset changes no state, so two loads of the same offset with no store
between, whatever else runs there, answer the same; a store followed by a load of the same offset answers the
stored value; and storing the same value twice leaves the storage that storing it once leaves. -/
def Obligations.LoadsAndStoresAreIdempotent : Prop :=
  ∀ (s : State), s.halted = false → s.mem.wf →
    (∀ a : Int, ∃ t, exec (.memLoadword a) s = .next t ∧ t.gpr = s.gpr ∧ t.cop0 = s.cop0 ∧ t.mem = s.mem ∧
      t.halted = s.halted ∧ t.requests = s.requests ∧ t.diagnostics = s.diagnostics) ∧
    ∀ (o : Nat) (v : Word), o + 3 < 0x200000 →
      (∃ t w, exec (.memLoadword o) s = .next t ∧ t.responses = s.responses ++ [.memValue w] ∧
        ∀ (ops : List Instr) (u : State), (∀ i ∈ ops, ∀ (a : Int) (v' : Word), i ≠ .memStoreword a v') →
          runOps ops t = .next u → u.halted = false →
          ∃ u', exec (.memLoadword o) u = .next u' ∧ u'.responses = u.responses ++ [.memValue w]) ∧
      (∃ t, runOps [.memStoreword o v, .memLoadword o] s = .next t ∧
        t.responses = s.responses ++ [.memDone, .memValue v]) ∧
      (∃ t u, exec (.memStoreword o v) s = .next t ∧ exec (.memStoreword o v) t = .next u ∧
        u.mem = t.mem ∧ u.gpr = t.gpr ∧ u.cop0 = t.cop0 ∧ u.halted = t.halted)

/-- 42_mem_ops.md R92 law 4, which the spec marks as derived: disjoint stores commute, in bounds or not. -/
def Obligations.DisjointStoresCommute : Prop :=
  ∀ (o o' : Int) (v v' : Word) (s t t' : State), s.mem.wf → o + 4 ≤ o' ∨ o' + 4 ≤ o →
    runOps [.memStoreword o v, .memStoreword o' v'] s = .next t →
    runOps [.memStoreword o' v', .memStoreword o v] s = .next t' →
    t.mem = t'.mem

/-- 20_memory.md R51 (b), R45, over any sequence of operations: each byte of memory is the byte written by the
latest earlier in-bounds store that covered it, or what it was before. -/
def Obligations.MemoryHoldsLatestStore : Prop :=
  ∀ (ops : List Instr) (s t : State) (a : Nat), s.mem.wf → runOps ops s = .next t →
    t.byte a = ops.foldl (fun b i => i.leavesByte a b) (s.byte a)

/-- 20_memory.md R43, 42_mem_ops.md R92 law 5: a failing access is clean: the next operation proceeds as if it
had come first, but for the failure's own answer before it. -/
def Obligations.BoundsFailureIsClean : Prop :=
  ∀ (offset : Int) (value : Word) (i j : Instr) (s : State),
    ¬ (0 ≤ offset ∧ offset + 3 < 0x200000) → i = .memLoadword offset ∨ i = .memStoreword offset value →
    s.halted = false →
    runOps [i, j] s = exec j { s with responses := s.responses ++ [.outOfBounds] }

/-! ## Reset -/

/-- 70_reset_and_hazards.md R120, 10_state.md R29 to R32: the state after reset, for every choice of the open
parameters. One reset event, and the latch, are the spec's own decisions D11, D8; the empty record of
responses and list of requests are the model's (log entries 1, 6). -/
def Obligations.ResetLeavesTheResetState : Prop :=
  ∀ p : ResetParams,
    let s := State.resetWith p
    s.x 0 = 0#32 ∧ (∀ r : Fin 32, r ≠ 0 → s.x r = p.gpr[r.val]) ∧
    (∀ r : Cop0Reg, s.c0 r = p.cop0.read r) ∧
    (∀ a : Nat, a < 0x200000 → s.byte a = 0xCA#8) ∧
    s.halted = false ∧ s.diagnostics = [] ∧ s.responses = [] ∧ s.requests = []

/-- 10_state.md R31, which the spec derives from the construction: the doubling copy leaves the sentinel 0xCA
in every byte, whatever the capacity, in passes that double the length; with C = 2^21 none is cut short and
21 fill the buffer. -/
def Obligations.DoublingFillIsUniform : Prop :=
  (∀ cap : Nat, 1 ≤ cap → powerOnFill cap = List.replicate cap 0xCA#8) ∧
  (∀ p : Nat, p ≤ 21 → (fillPasses 0x200000 p [0xCA#8]).length = 2 ^ p)

/-- 10_state.md R31: memory after reset, byte for byte, is what the doubling copy makes, in every instance. -/
def Obligations.ResetMemoryIsPowerOnFill : Prop :=
  ∀ (p : ResetParams) (a : Nat), a < 0x200000 →
    (powerOnFill Config.capacity)[a]? = some ((State.resetWith p).byte a)

/-- 10_state.md R31, 42_mem_ops.md R92 law 6: before any store, a load at every in-bounds offset answers
0xCACACACA, whatever else was done. -/
def Obligations.FreshMemoryLoadsFill : Prop :=
  ∀ (p : ResetParams) (ops : List Instr) (o : Nat) (t : State),
    (∀ i ∈ ops, ∀ (a : Int) (v : Word), i ≠ .memStoreword a v) → o + 3 < 0x200000 →
    runOps ops (State.resetWith p) = .next t → t.halted = false →
    ∃ u, exec (.memLoadword o) t = .next u ∧ u.responses = t.responses ++ [.memValue 0xCACACACA#32]
end

