-- ==== Sys2Proof/Laws/Decode.lean ====
section
/-! SUPPORT. The three fields of a request word, packed and unpacked (spec/30_encoding.md R56). -/

namespace Sys2Proof

/-- Each field of a packed request is the field. -/
@[simp] theorem Request.unpack_pack (r : Request) : Request.unpack r.pack = r := by
  obtain ⟨op, addr, wdata⟩ := r
  simp only [Request.unpack, Request.pack, Request.mk.injEq]
  refine ⟨?_, ?_, ?_⟩ <;> apply BitVec.eq_of_getLsbD_eq <;> intro i hi <;>
    simp only [BitVec.getLsbD_extractLsb', BitVec.getLsbD_append, hi, decide_true, Bool.true_and]
  · simp
  · rw [if_pos (by omega), if_neg (by omega)]
    congr 1
    omega
  · rw [if_pos (by omega), if_pos (by omega)]
    congr 1
    omega

/-- A request word is its three fields. -/
@[simp] theorem Request.pack_unpack (w : ReqWord) : (Request.unpack w).pack = w := by
  apply BitVec.eq_of_getLsbD_eq
  intro i hi
  simp only [Request.unpack, Request.pack, BitVec.getLsbD_append, BitVec.getLsbD_extractLsb']
  split_ifs with h1 h2
  · simp [h2]
  · rw [show 32 + (i - 32) = i by omega, decide_eq_true (by omega : i - 32 < 32), Bool.true_and]
  · rw [show 64 + (i - (32 + 32)) = i by omega, decide_eq_true (by omega : i - (32 + 32) < 8),
      Bool.true_and]

/-- Decoding a packed request reads its fields. -/
@[simp] theorem decode_pack (r : Request) : decode r.pack = r.operation := by
  simp [decode]

/-- A well-formed `addr` operand is read back as the integer it was. -/
theorem Instr.addr_field {i : Instr} (h : i.WellFormed) :
    ((BitVec.ofInt 32 i.addr).toNat : Int) = i.addr := by
  obtain ⟨h0, h1⟩ := h
  simp only [Instr.AddrNonneg, Instr.AddrFits, Config.addrLimit] at h0 h1
  rw [BitVec.toNat_ofInt]
  omega

/-- Whatever a request word spells is well formed (30_encoding.md R58). -/
theorem wellFormed_of_operation {r : Request} {i : Instr} (h : r.operation = .ok i) : i.WellFormed := by
  have hlt : (r.addr.toNat : Int) < (Config.addrLimit : Int) := by
    have := r.addr.isLt
    simp only [Config.addrLimit]
    omega
  unfold Request.operation at h
  split at h <;> cases h <;> exact ⟨Int.natCast_nonneg _, hlt⟩

end Sys2Proof
end

