-- ==== Sys2Proof/Laws/Memory.lean ====
section
/-! SUPPORT. The laws of the byte store: read after write, the canonical form kept by every operation, equal
contents are equal memories, and the same for the two word primitives (spec/20_memory.md R39, R40). -/

namespace Sys2Proof.Machine

@[simp] theorem Memory.byteAt_nil (a : Nat) : Memory.byteAt [] a = Config.fill0 := rfl

theorem Memory.byteAt_cons (k : Nat) (b : Byte) (m : Memory) (a : Nat) :
    Memory.byteAt ((k, b) :: m) a = if k = a then b else Memory.byteAt m a := rfl

theorem Memory.wf_nil : Memory.wf [] := by simp [Memory.wf]

theorem Memory.wf_cons {k : Nat} {b : Byte} {m : Memory} :
    Memory.wf ((k, b) :: m) ↔
      (∀ p ∈ m, k < p.1) ∧ k < Config.capacity ∧ b ≠ Config.fill0 ∧ Memory.wf m := by
  simp only [Memory.wf, List.pairwise_cons, List.mem_cons, forall_eq_or_imp]
  tauto

/-- An offset below every listed one reads as the fill. -/
theorem Memory.byteAt_eq_fill {m : Memory} {a : Nat} (h : ∀ p ∈ m, a < p.1) :
    m.byteAt a = Config.fill0 := by
  induction m with
  | nil => rfl
  | cons p m ih =>
    obtain ⟨k, b⟩ := p
    have hk : a < k := h (k, b) (by simp)
    rw [Memory.byteAt_cons, if_neg (by omega)]
    exact ih fun q hq => h q (by simp [hq])

/-- Nothing is listed by `setByte` but its own offset and what was listed. -/
theorem Memory.mem_setByte {m : Memory} {a : Nat} {b : Byte} {p : Host.Cell}
    (h : p ∈ m.setByte a b) : p ∈ m ∨ p = (a, b) ∧ b ≠ Config.fill0 := by
  induction m with
  | nil =>
    simp only [Memory.setByte] at h
    split at h
    · simp at h
    · simp_all
  | cons q m ih =>
    obtain ⟨k, c⟩ := q
    simp only [Memory.setByte] at h
    split at h
    · rcases List.mem_cons.1 h with h | h
      · simp [h]
      · rcases ih h with h | h <;> simp [h]
    · split_ifs at h <;> simp_all <;> tauto

/-- A write in the capacity keeps the canonical form. -/
theorem Memory.wf_setByte {m : Memory} {a : Nat} (b : Byte) (hm : m.wf) (ha : a < Config.capacity) :
    (m.setByte a b).wf := by
  induction m with
  | nil =>
    simp only [Memory.setByte]
    split
    · exact Memory.wf_nil
    · simp_all [Memory.wf]
  | cons q m ih =>
    obtain ⟨k, c⟩ := q
    obtain ⟨hk, hkc, hc, hm'⟩ := Memory.wf_cons.1 hm
    simp only [Memory.setByte]
    split
    · rename_i hlt
      refine Memory.wf_cons.2 ⟨fun p hp => ?_, hkc, hc, ih hm'⟩
      rcases Memory.mem_setByte hp with hp | ⟨rfl, -⟩
      · exact hk p hp
      · exact hlt
    · rename_i hlt
      split_ifs with hb hka hka
      · exact hm'
      · exact hm
      · exact Memory.wf_cons.2 ⟨hka ▸ hk, ha, hb, hm'⟩
      · refine Memory.wf_cons.2 ⟨fun p hp => ?_, ha, hb, hm⟩
        rcases List.mem_cons.1 hp with rfl | hp
        · omega
        · exact lt_trans (by omega) (hk p hp)

/-- Read after write: the written offset reads the byte, every other reads as before. -/
theorem Memory.byteAt_setByte {m : Memory} (hm : m.wf) (a : Nat) (b : Byte) (x : Nat) :
    (m.setByte a b).byteAt x = if x = a then b else m.byteAt x := by
  induction m with
  | nil =>
    by_cases hb : b = Config.fill0 <;> by_cases hx : x = a <;>
      simp_all [Memory.setByte, Memory.byteAt_cons, eq_comm]
  | cons q m ih =>
    obtain ⟨k, c⟩ := q
    obtain ⟨hk, hkc, hc, hm'⟩ := Memory.wf_cons.1 hm
    have hfill : x ≤ k → Memory.byteAt m x = Config.fill0 := fun h =>
      Memory.byteAt_eq_fill fun p hp => lt_of_le_of_lt h (hk p hp)
    simp only [Memory.setByte]
    split
    · rw [Memory.byteAt_cons, ih hm', Memory.byteAt_cons]
      split_ifs <;> first | rfl | omega
    · rename_i hlt
      by_cases hb : b = Config.fill0 <;> by_cases hka : k = a <;> by_cases hxa : x = a <;>
        simp_all [Memory.byteAt_cons, eq_comm]

/-- Two canonical memories with the same bytes are the same data. -/
theorem Memory.ext_byteAt {m n : Memory} (hm : m.wf) (hn : n.wf)
    (h : ∀ a, m.byteAt a = n.byteAt a) : m = n := by
  induction m generalizing n with
  | nil =>
    cases n with
    | nil => rfl
    | cons q n =>
      obtain ⟨k, c⟩ := q
      have := h k
      simp only [Memory.byteAt_nil, Memory.byteAt_cons, if_true] at this
      exact absurd this.symm (Memory.wf_cons.1 hn).2.2.1
  | cons p m ih =>
    obtain ⟨j, b⟩ := p
    obtain ⟨hj, -, hb, hm'⟩ := Memory.wf_cons.1 hm
    cases n with
    | nil =>
      have := h j
      simp only [Memory.byteAt_nil, Memory.byteAt_cons, if_true] at this
      exact absurd this hb
    | cons q n =>
      obtain ⟨k, c⟩ := q
      obtain ⟨hk, -, hc, hn'⟩ := Memory.wf_cons.1 hn
      have hjk : j = k := by
        by_contra hne
        rcases Nat.lt_or_gt_of_ne hne with hlt | hlt
        · have := h j
          rw [Memory.byteAt_cons, if_pos rfl, Memory.byteAt_cons, if_neg (by omega),
            Memory.byteAt_eq_fill fun p hp => lt_trans hlt (hk p hp)] at this
          exact hb this
        · have := h k
          rw [Memory.byteAt_cons, if_neg (by omega), Memory.byteAt_cons, if_pos rfl,
            Memory.byteAt_eq_fill fun p hp => lt_trans hlt (hj p hp)] at this
          exact hc this.symm
      subst hjk
      have hbc : b = c := by simpa [Memory.byteAt_cons] using h j
      subst hbc
      congr 1
      refine ih hm' hn' fun a => ?_
      by_cases haj : a ≤ j
      · rw [Memory.byteAt_eq_fill fun p hp => lt_of_le_of_lt haj (hj p hp),
          Memory.byteAt_eq_fill fun p hp => lt_of_le_of_lt haj (hk p hp)]
      · have := h a
        rwa [Memory.byteAt_cons, if_neg (by omega), Memory.byteAt_cons, if_neg (by omega)] at this

theorem Memory.wf_writeWord {m : Memory} {o : Nat} (v : Word) (hm : m.wf)
    (ho : o + 3 < Config.capacity) : (m.writeWord o v).wf :=
  Memory.wf_setByte _ (Memory.wf_setByte _ (Memory.wf_setByte _ (Memory.wf_setByte _ hm (by omega))
    (by omega)) (by omega)) ho

/-- `MemWrite` writes its four lanes and no other byte (20_memory.md R40). -/
theorem Memory.byteAt_writeWord {m : Memory} {o : Nat} (v : Word) (hm : m.wf)
    (ho : o + 3 < Config.capacity) (a : Nat) :
    (m.writeWord o v).byteAt a = if o ≤ a ∧ a ≤ o + 3 then byteLane v (a - o) else m.byteAt a := by
  have h0 := Memory.wf_setByte (byteLane v 0) hm (a := o) (by omega)
  have h1 := Memory.wf_setByte (byteLane v 1) h0 (a := o + 1) (by omega)
  have h2 := Memory.wf_setByte (byteLane v 2) h1 (a := o + 2) (by omega)
  rw [Memory.writeWord, Memory.byteAt_setByte h2, Memory.byteAt_setByte h1, Memory.byteAt_setByte h0,
    Memory.byteAt_setByte hm]
  by_cases h : o ≤ a ∧ a ≤ o + 3
  · obtain ⟨k, rfl⟩ : ∃ k, a = o + k := ⟨a - o, by omega⟩
    have hk : k = 0 ∨ k = 1 ∨ k = 2 ∨ k = 3 := by omega
    rcases hk with rfl | rfl | rfl | rfl <;> simp
  · rw [if_neg h, if_neg (by omega), if_neg (by omega), if_neg (by omega), if_neg (by omega)]

/-- The four lanes of a word, put together, are the word (20_memory.md R39, R40). -/
theorem byteLane_append (v : Word) :
    byteLane v 3 ++ byteLane v 2 ++ byteLane v 1 ++ byteLane v 0 = v := by
  apply BitVec.eq_of_getLsbD_eq
  intro i hi
  simp only [byteLane, BitVec.getLsbD_append, BitVec.getLsbD_extractLsb']
  have h : 8 * (i / 8) + i % 8 = i := Nat.div_add_mod i 8
  have hi' : i / 8 = 0 ∨ i / 8 = 1 ∨ i / 8 = 2 ∨ i / 8 = 3 := by omega
  rcases hi' with e | e | e | e <;> rw [e] at h <;> obtain ⟨j, hj⟩ : ∃ j, j = i % 8 := ⟨_, rfl⟩ <;>
    rw [← hj] at h <;> have hj8 : j < 8 := by omega
  all_goals subst h; clear hj e; interval_cases j <;> simp

/-- A load after a store at the same offset gives the value (20_memory.md R50). -/
theorem Memory.readWord_writeWord {m : Memory} {o : Nat} (v : Word) (hm : m.wf)
    (ho : o + 3 < Config.capacity) : (m.writeWord o v).readWord o = v := by
  simp only [Memory.readWord, Memory.byteAt_writeWord v hm ho]
  simpa using byteLane_append v

/-- The value of a word read is the weighted sum of its bytes (20_memory.md R39, 42_mem_ops.md R93). -/
theorem Memory.readWord_toNat (m : Memory) (o : Nat) :
    (m.readWord o).toNat = (m.byteAt o).toNat + 2 ^ 8 * (m.byteAt (o + 1)).toNat +
      2 ^ 16 * (m.byteAt (o + 2)).toNat + 2 ^ 24 * (m.byteAt (o + 3)).toNat := by
  simp only [Memory.readWord, BitVec.toNat_append, Nat.shiftLeft_eq]
  have h0 := (m.byteAt o).isLt
  have h1 := (m.byteAt (o + 1)).isLt
  have h2 := (m.byteAt (o + 2)).isLt
  rw [← Nat.shiftLeft_eq, ← Nat.shiftLeft_eq, ← Nat.shiftLeft_eq, ← Nat.shiftLeft_add_eq_or_of_lt h2,
    ← Nat.shiftLeft_add_eq_or_of_lt h1, ← Nat.shiftLeft_add_eq_or_of_lt h0]
  simp only [Nat.shiftLeft_eq]
  omega

/-- `v[8k+7:8k] = floor(v / 2^(8k)) mod 256` (42_mem_ops.md R93 (c)). -/
theorem byteLane_toNat (v : Word) (k : Nat) : (byteLane v k).toNat = v.toNat / 2 ^ (8 * k) % 256 := by
  simp [byteLane, Nat.shiftRight_eq_div_pow]

end Sys2Proof.Machine
end

