-- ==== Sys2Proof/Laws/Operands.lean ====
section
/-! SUPPORT. What an index operand names: the general register slots, and the coprocessor-0 table against the
list of recognised indices. -/

namespace Sys2Proof.Machine

theorem gprSlot?_eq_none {i : Int} : gprSlot? i = none ↔ ¬ (0 ≤ i ∧ i ≤ 31) := by
  unfold gprSlot?
  split <;> simp_all

theorem gprSlot?_eq_some {i : Int} {r : Fin 32} : gprSlot? i = some r ↔ i = (r.val : Int) := by
  unfold gprSlot?
  have := r.isLt
  split
  · rw [Option.some.injEq, Fin.ext_iff]
    constructor <;> intro h <;> simp at * <;> omega
  · constructor
    · simp
    · rintro rfl
      omega

@[simp] theorem gprSlot?_val (r : Fin 32) : gprSlot? (r.val : Int) = some r := gprSlot?_eq_some.2 rfl

/-- Every index reaches a slot or none. -/
theorem gprSlot?_cases (i : Int) :
    (¬ (0 ≤ i ∧ i ≤ 31) ∧ gprSlot? i = none) ∨ ∃ r : Fin 32, i = (r.val : Int) ∧ gprSlot? i = some r := by
  cases h : gprSlot? i with
  | none => exact .inl ⟨gprSlot?_eq_none.1 h, rfl⟩
  | some r => exact .inr ⟨r, gprSlot?_eq_some.1 h, rfl⟩

/-- The two read-only entries (10_state.md R16). -/
abbrev Cop0Reg.ReadOnly (r : Cop0Reg) : Prop := r = .badVaddr ∨ r = .prid

/-- The table at the index of an entry. -/
@[simp] theorem cop0Lookup_index (r : Cop0Reg) :
    cop0Lookup (r.index : Int) = some ⟨r.index, r, decide r.ReadOnly⟩ := by
  cases r <;> rfl

theorem cop0_index_recognised (r : Cop0Reg) : (r.index : Int) ∈ recognisedIndices := by
  cases r <;> decide

theorem exists_of_recognised {i : Int} (h : i ∈ recognisedIndices) : ∃ r : Cop0Reg, i = (r.index : Int) := by
  simp only [recognisedIndices, List.mem_cons, List.not_mem_nil, or_false] at h
  rcases h with h | h | h | h | h | h | h | h | h | h | h <;> subst h
  exacts [⟨.bpc, rfl⟩, ⟨.bda, rfl⟩, ⟨.jumpdest, rfl⟩, ⟨.dcic, rfl⟩, ⟨.badVaddr, rfl⟩, ⟨.bdam, rfl⟩,
    ⟨.bpcm, rfl⟩, ⟨.sr, rfl⟩, ⟨.cause, rfl⟩, ⟨.epc, rfl⟩, ⟨.prid, rfl⟩]

theorem cop0Lookup_eq_none {i : Int} : cop0Lookup i = none ↔ i ∉ recognisedIndices := by
  constructor
  · intro h hi
    obtain ⟨r, rfl⟩ := exists_of_recognised hi
    simp at h
  · intro h
    cases e : cop0Lookup i with
    | none => rfl
    | some x =>
      have hx := List.find?_some e
      have hm := List.mem_of_find?_eq_some e
      simp only [decide_eq_true_eq] at hx
      refine absurd ?_ h
      rw [← hx]
      revert hm
      clear hx e h
      intro hm
      simp only [cop0Table, List.mem_cons, List.not_mem_nil, or_false] at hm
      rcases hm with h | h | h | h | h | h | h | h | h | h | h <;> subst h <;> decide

/-- Every index is that of one entry, or unrecognised. -/
theorem cop0Lookup_cases (i : Int) :
    (i ∉ recognisedIndices ∧ cop0Lookup i = none) ∨
      ∃ r : Cop0Reg, i = (r.index : Int) ∧ cop0Lookup i = some ⟨r.index, r, decide r.ReadOnly⟩ := by
  by_cases h : i ∈ recognisedIndices
  · obtain ⟨r, rfl⟩ := exists_of_recognised h
    exact .inr ⟨r, rfl, cop0Lookup_index r⟩
  · exact .inl ⟨h, cop0Lookup_eq_none.2 h⟩

theorem cop0_index_injective {r q : Cop0Reg} (h : (r.index : Int) = (q.index : Int)) : r = q := by
  cases r <;> cases q <;> first | rfl | (exact absurd h (by decide))

end Sys2Proof.Machine
end

