-- ==== Sys2Proof/Laws/State.lean ====
section
/-! SUPPORT. One lemma per field of the state per update, and per view (`x`, `c0`, `byte`) of a field, so
that no proof unfolds a record update. -/

namespace Sys2Proof.Machine

variable (s : State)

@[simp] theorem State.writeGpr_cop0 (r : Fin 32) (v : Word) : (s.writeGpr r v).cop0 = s.cop0 := rfl
@[simp] theorem State.writeGpr_mem (r : Fin 32) (v : Word) : (s.writeGpr r v).mem = s.mem := rfl
@[simp] theorem State.writeGpr_halted (r : Fin 32) (v : Word) : (s.writeGpr r v).halted = s.halted := rfl
@[simp] theorem State.writeGpr_requests (r : Fin 32) (v : Word) : (s.writeGpr r v).requests = s.requests := rfl
@[simp] theorem State.writeGpr_responses (r : Fin 32) (v : Word) : (s.writeGpr r v).responses = s.responses := rfl
@[simp] theorem State.writeGpr_diagnostics (r : Fin 32) (v : Word) : (s.writeGpr r v).diagnostics = s.diagnostics := rfl
@[simp] theorem State.writeGpr_c0 (r : Fin 32) (v : Word) (q : Cop0Reg) : (s.writeGpr r v).c0 q = s.c0 q := rfl
@[simp] theorem State.writeGpr_byte (r : Fin 32) (v : Word) (a : Nat) : (s.writeGpr r v).byte a = s.byte a := rfl

@[simp] theorem State.writeCop0_gpr (r : Cop0Reg) (v : Word) : (s.writeCop0 r v).gpr = s.gpr := rfl
@[simp] theorem State.writeCop0_cop0 (r : Cop0Reg) (v : Word) : (s.writeCop0 r v).cop0 = s.cop0.write r v := rfl
@[simp] theorem State.writeCop0_mem (r : Cop0Reg) (v : Word) : (s.writeCop0 r v).mem = s.mem := rfl
@[simp] theorem State.writeCop0_halted (r : Cop0Reg) (v : Word) : (s.writeCop0 r v).halted = s.halted := rfl
@[simp] theorem State.writeCop0_requests (r : Cop0Reg) (v : Word) : (s.writeCop0 r v).requests = s.requests := rfl
@[simp] theorem State.writeCop0_responses (r : Cop0Reg) (v : Word) : (s.writeCop0 r v).responses = s.responses := rfl
@[simp] theorem State.writeCop0_diagnostics (r : Cop0Reg) (v : Word) : (s.writeCop0 r v).diagnostics = s.diagnostics := rfl
@[simp] theorem State.writeCop0_x (r : Cop0Reg) (v : Word) (q : Fin 32) : (s.writeCop0 r v).x q = s.x q := rfl
@[simp] theorem State.writeCop0_byte (r : Cop0Reg) (v : Word) (a : Nat) : (s.writeCop0 r v).byte a = s.byte a := rfl

@[simp] theorem State.writeMem_gpr (o : Nat) (v : Word) : (s.writeMem o v).gpr = s.gpr := rfl
@[simp] theorem State.writeMem_cop0 (o : Nat) (v : Word) : (s.writeMem o v).cop0 = s.cop0 := rfl
@[simp] theorem State.writeMem_mem (o : Nat) (v : Word) : (s.writeMem o v).mem = s.mem.writeWord o v := rfl
@[simp] theorem State.writeMem_halted (o : Nat) (v : Word) : (s.writeMem o v).halted = s.halted := rfl
@[simp] theorem State.writeMem_requests (o : Nat) (v : Word) : (s.writeMem o v).requests = s.requests := rfl
@[simp] theorem State.writeMem_responses (o : Nat) (v : Word) : (s.writeMem o v).responses = s.responses := rfl
@[simp] theorem State.writeMem_diagnostics (o : Nat) (v : Word) : (s.writeMem o v).diagnostics = s.diagnostics := rfl
@[simp] theorem State.writeMem_x (o : Nat) (v : Word) (q : Fin 32) : (s.writeMem o v).x q = s.x q := rfl
@[simp] theorem State.writeMem_c0 (o : Nat) (v : Word) (q : Cop0Reg) : (s.writeMem o v).c0 q = s.c0 q := rfl

@[simp] theorem State.emit_gpr (d : Diagnostic) : (s.emit d).gpr = s.gpr := rfl
@[simp] theorem State.emit_cop0 (d : Diagnostic) : (s.emit d).cop0 = s.cop0 := rfl
@[simp] theorem State.emit_mem (d : Diagnostic) : (s.emit d).mem = s.mem := rfl
@[simp] theorem State.emit_halted (d : Diagnostic) : (s.emit d).halted = s.halted := rfl
@[simp] theorem State.emit_requests (d : Diagnostic) : (s.emit d).requests = s.requests := rfl
@[simp] theorem State.emit_responses (d : Diagnostic) : (s.emit d).responses = s.responses := rfl
@[simp] theorem State.emit_diagnostics (d : Diagnostic) : (s.emit d).diagnostics = s.diagnostics ++ [d] := rfl
@[simp] theorem State.emit_x (d : Diagnostic) (q : Fin 32) : (s.emit d).x q = s.x q := rfl
@[simp] theorem State.emit_c0 (d : Diagnostic) (q : Cop0Reg) : (s.emit d).c0 q = s.c0 q := rfl
@[simp] theorem State.emit_byte (d : Diagnostic) (a : Nat) : (s.emit d).byte a = s.byte a := rfl

@[simp] theorem State.halt_gpr : (s.halt).gpr = s.gpr := rfl
@[simp] theorem State.halt_cop0 : (s.halt).cop0 = s.cop0 := rfl
@[simp] theorem State.halt_mem : (s.halt).mem = s.mem := rfl
@[simp] theorem State.halt_halted : (s.halt).halted = true := rfl
@[simp] theorem State.halt_requests : (s.halt).requests = s.requests := rfl
@[simp] theorem State.halt_responses : (s.halt).responses = s.responses := rfl
@[simp] theorem State.halt_diagnostics : (s.halt).diagnostics = s.diagnostics := rfl
@[simp] theorem State.halt_x (q : Fin 32) : (s.halt).x q = s.x q := rfl
@[simp] theorem State.halt_c0 (q : Cop0Reg) : (s.halt).c0 q = s.c0 q := rfl
@[simp] theorem State.halt_byte (a : Nat) : (s.halt).byte a = s.byte a := rfl

@[simp] theorem State.respond_gpr (r : Result) : (s.respond r).gpr = s.gpr := rfl
@[simp] theorem State.respond_cop0 (r : Result) : (s.respond r).cop0 = s.cop0 := rfl
@[simp] theorem State.respond_mem (r : Result) : (s.respond r).mem = s.mem := rfl
@[simp] theorem State.respond_halted (r : Result) : (s.respond r).halted = s.halted := rfl
@[simp] theorem State.respond_requests (r : Result) : (s.respond r).requests = s.requests := rfl
@[simp] theorem State.respond_responses (r : Result) : (s.respond r).responses = s.responses ++ [r] := rfl
@[simp] theorem State.respond_diagnostics (r : Result) : (s.respond r).diagnostics = s.diagnostics := rfl
@[simp] theorem State.respond_x (r : Result) (q : Fin 32) : (s.respond r).x q = s.x q := rfl
@[simp] theorem State.respond_c0 (r : Result) (q : Cop0Reg) : (s.respond r).c0 q = s.c0 q := rfl
@[simp] theorem State.respond_byte (r : Result) (a : Nat) : (s.respond r).byte a = s.byte a := rfl

@[simp] theorem State.withRequests_gpr (ws : List ReqWord) : (s.withRequests ws).gpr = s.gpr := rfl
@[simp] theorem State.withRequests_cop0 (ws : List ReqWord) : (s.withRequests ws).cop0 = s.cop0 := rfl
@[simp] theorem State.withRequests_mem (ws : List ReqWord) : (s.withRequests ws).mem = s.mem := rfl
@[simp] theorem State.withRequests_halted (ws : List ReqWord) : (s.withRequests ws).halted = s.halted := rfl
@[simp] theorem State.withRequests_requests (ws : List ReqWord) : (s.withRequests ws).requests = ws := rfl
@[simp] theorem State.withRequests_responses (ws : List ReqWord) : (s.withRequests ws).responses = s.responses := rfl
@[simp] theorem State.withRequests_diagnostics (ws : List ReqWord) : (s.withRequests ws).diagnostics = s.diagnostics := rfl
@[simp] theorem State.withRequests_x (ws : List ReqWord) (q : Fin 32) : (s.withRequests ws).x q = s.x q := rfl
@[simp] theorem State.withRequests_c0 (ws : List ReqWord) (q : Cop0Reg) : (s.withRequests ws).c0 q = s.c0 q := rfl
@[simp] theorem State.withRequests_byte (ws : List ReqWord) (a : Nat) : (s.withRequests ws).byte a = s.byte a := rfl

/-- `x[r] <- v ; x[0] <- 0` (40_gpr_ops.md R71), slot by slot. -/
@[simp] theorem State.writeGpr_x (r : Fin 32) (v : Word) (q : Fin 32) :
    (s.writeGpr r v).x q = if q = 0 then 0#32 else if q = r then v else s.x q := by
  by_cases h0 : q = 0
  · subst h0; simp [State.writeGpr, State.x]
  · have hq : q.val ≠ 0 := fun h => h0 (Fin.ext h)
    by_cases h : q = r
    · subst h; simp [State.writeGpr, State.x, h0, hq.symm]
    · have hr : r.val ≠ q.val := fun e => h (Fin.ext e.symm)
      simp [State.writeGpr, State.x, h0, h, hq.symm, hr]

/-- A write to one entry leaves every other (41_cop0_ops.md R83 law 3). -/
@[simp] theorem Cop0File.read_write (f : Cop0File) (r q : Cop0Reg) (v : Word) :
    (f.write r v).read q = if q = r then v else f.read q := by
  cases r <;> cases q <;> rfl

@[simp] theorem State.writeCop0_c0 (r q : Cop0Reg) (v : Word) :
    (s.writeCop0 r v).c0 q = if q = r then v else s.c0 q := by
  simp [State.writeCop0, State.c0]

/-- Two coprocessor-0 files are equal when every entry reads the same. -/
theorem Cop0File.ext_read {f g : Cop0File} (h : ∀ r, f.read r = g.read r) : f = g := by
  obtain ⟨f1, f2, f3, f4, f5, f6, f7, f8, f9, f10, f11⟩ := f
  obtain ⟨g1, g2, g3, g4, g5, g6, g7, g8, g9, g10, g11⟩ := g
  have h1 := h .bpc; have h2 := h .bda; have h3 := h .jumpdest; have h4 := h .dcic
  have h5 := h .badVaddr; have h6 := h .bdam; have h7 := h .bpcm; have h8 := h .sr
  have h9 := h .cause; have h10 := h .epc; have h11 := h .prid
  simp only [Cop0File.read] at *
  subst_vars
  rfl

/-- Slot by slot equality of two register files. -/
theorem State.gpr_eq_of_x {s t : State} (h : ∀ r, s.x r = t.x r) : s.gpr = t.gpr := by
  apply Vector.ext
  intro i hi
  exact h ⟨i, hi⟩

/-- Reset, view by view (70_reset_and_hazards.md R120). -/
@[simp] theorem State.resetWith_x (p : ResetParams) (r : Fin 32) :
    (State.resetWith p).x r = if r = 0 then 0#32 else p.gpr[r.val] := by
  by_cases h : r = 0
  · subst h; simp [State.resetWith, State.x]
  · have hr : (0 : Nat) ≠ r.val := fun e => h (Fin.ext e.symm)
    simp [State.resetWith, State.x, h, hr]

@[simp] theorem State.resetWith_c0 (p : ResetParams) (r : Cop0Reg) :
    (State.resetWith p).c0 r = p.cop0.read r := rfl
@[simp] theorem State.resetWith_byte (p : ResetParams) (a : Nat) :
    (State.resetWith p).byte a = Config.fill0 := rfl
@[simp] theorem State.resetWith_mem (p : ResetParams) : (State.resetWith p).mem = [] := rfl
@[simp] theorem State.resetWith_halted (p : ResetParams) : (State.resetWith p).halted = false := rfl
@[simp] theorem State.resetWith_requests (p : ResetParams) : (State.resetWith p).requests = [] := rfl
@[simp] theorem State.resetWith_responses (p : ResetParams) : (State.resetWith p).responses = [] := rfl
@[simp] theorem State.resetWith_diagnostics (p : ResetParams) : (State.resetWith p).diagnostics = [] := rfl

end Sys2Proof.Machine
end

