-- ==== Sys2Proof/Laws/Exec.lean ====
section
/-! SUPPORT. What each shared operation and each instruction can do, said once: the frame `operate`, the raised
signals, `fetch`, `step`, one equation per instruction and operand class, the inversion of `exec`, and what a
run without a store leaves. -/

namespace Sys2Proof.Machine

variable {s t : State}

/-! ## The shared operations -/

theorem operate_running (h : s.halted = false) (done : State × Result) :
    operate s done = .next (done.1.respond done.2) := by
  simp [operate, h]

theorem operate_halted (h : s.halted = true) (done : State × Result) : operate s done = .fault .halted := by
  simp [operate, h]

/-- If an operation answers, the block was running, and the new state is the operation's, with its result. -/
theorem operate_next {done : State × Result} :
    operate s done = .next t ↔ s.halted = false ∧ t = done.1.respond done.2 := by
  cases h : s.halted <;> simp [operate, h, eq_comm]

@[simp] theorem raise_advisory (c : Reporter) (o : RegAccess) (i : Int) :
    raise (.advisory c o i) s = s.emit ⟨.advisory, c, o, i⟩ := rfl
@[simp] theorem raise_bounds (o : MemAccess) (i : Int) : raise (.bounds o i) s = s := rfl
@[simp] theorem raise_fatal (c : Reporter) (o : RegAccess) (i : Int) :
    raise (.fatal c o i) s = (s.emit ⟨.fatal, c, o, i⟩).halt := rfl

/-- No signal touches a register, a coprocessor-0 entry, memory, the requests or the responses (60_exceptions.md
R107). -/
theorem raise_frame (sig : Signal) :
    (raise sig s).gpr = s.gpr ∧ (raise sig s).cop0 = s.cop0 ∧ (raise sig s).mem = s.mem ∧
      (raise sig s).requests = s.requests ∧ (raise sig s).responses = s.responses := by
  cases sig <;> simp

/-- `MemWrite` on the state, byte by byte (20_memory.md R40). -/
theorem State.writeMem_byte {o : Nat} (v : Word) (hm : s.mem.wf) (ho : o + 3 < Config.capacity) (a : Nat) :
    (s.writeMem o v).byte a = if o ≤ a ∧ a ≤ o + 3 then byteLane v (a - o) else s.byte a :=
  Memory.byteAt_writeWord v hm ho a

theorem readGpr_zero : readGpr s 0 = 0#32 := rfl

theorem readGpr_of_ne {r : Fin 32} (h : r ≠ 0) : readGpr s r = s.x r := if_neg h

/-! ## One equation per instruction and operand class -/

theorem exec_gprGet_out {i : Int} (h : ¬ (0 ≤ i ∧ i ≤ 31)) :
    exec (.gprGet i) s = operate s (s.emit ⟨.advisory, .gpr, .get, i⟩, .gprValueW 0#32) := by
  simp [exec, execGprGet, gprSlot?_eq_none.2 h]

theorem exec_gprGet_slot (r : Fin 32) :
    exec (.gprGet r.val) s = operate s (s, .gprValue (readGpr s r)) := by
  simp [exec, execGprGet]

theorem exec_gprSet_out {i : Int} (v : Word) (h : ¬ (0 ≤ i ∧ i ≤ 31)) :
    exec (.gprSet i v) s = operate s (s.emit ⟨.advisory, .gpr, .set, i⟩, .gprDoneW) := by
  simp [exec, execGprSet, gprSlot?_eq_none.2 h]

theorem exec_gprSet_slot (r : Fin 32) (v : Word) :
    exec (.gprSet r.val v) s = operate s (s.writeGpr r v, .gprDone) := by
  simp [exec, execGprSet]

theorem exec_cop0Get_out {i : Int} (h : i ∉ recognisedIndices) :
    exec (.cop0Get i) s = operate s ((s.emit ⟨.fatal, .cop0, .get, i⟩).halt, .fatalAbort) := by
  simp [exec, execCop0Get, cop0Lookup_eq_none.2 h]

theorem exec_cop0Get_entry (r : Cop0Reg) :
    exec (.cop0Get r.index) s = operate s (s, .cop0Value (s.c0 r) r) := by
  simp [exec, execCop0Get]

theorem exec_cop0Set_out {i : Int} (v : Word) (h : i ∉ recognisedIndices) :
    exec (.cop0Set i v) s = operate s ((s.emit ⟨.fatal, .cop0, .set, i⟩).halt, .fatalAbort) := by
  simp [exec, execCop0Set, cop0Lookup_eq_none.2 h]

theorem exec_cop0Set_readOnly {r : Cop0Reg} (v : Word) (h : r.ReadOnly) :
    exec (.cop0Set r.index v) s = operate s (s, .cop0RoDone) := by
  simp [exec, execCop0Set, h]

theorem exec_cop0Set_entry {r : Cop0Reg} (v : Word) (h : ¬ r.ReadOnly) :
    exec (.cop0Set r.index v) s = operate s (s.writeCop0 r v, .cop0Done r) := by
  simp only [exec, execCop0Set, cop0Lookup_index, decide_eq_true_eq, if_neg h]

theorem exec_memLoadword_in {o : Int} (h : InBounds o) :
    exec (.memLoadword o) s = operate s (s, .memValue (s.mem.readWord o.toNat)) := by
  simp only [exec, execMemLoadword, if_pos h]

theorem exec_memLoadword_out {o : Int} (h : ¬ InBounds o) :
    exec (.memLoadword o) s = operate s (s, .outOfBounds) := by
  simp only [exec, execMemLoadword, if_neg h, raise_bounds]

theorem exec_memStoreword_in {o : Int} (v : Word) (h : InBounds o) :
    exec (.memStoreword o v) s = operate s (s.writeMem o.toNat v, .memDone) := by
  simp only [exec, execMemStoreword, if_pos h]

theorem exec_memStoreword_out {o : Int} (v : Word) (h : ¬ InBounds o) :
    exec (.memStoreword o v) s = operate s (s, .outOfBounds) := by
  simp only [exec, execMemStoreword, if_neg h, raise_bounds]

/-! ## Inversion -/

/-- What an instruction does to a running block: the state before its answer, and the answer. Everything
`exec` can do is one of these. -/
inductive Effect : Instr → State → State → Result → Prop where
  | gprGetOut (i : Int) (s : State) (h : ¬ (0 ≤ i ∧ i ≤ 31)) :
      Effect (.gprGet i) s (s.emit ⟨.advisory, .gpr, .get, i⟩) (.gprValueW 0#32)
  | gprGetSlot (r : Fin 32) (s : State) : Effect (.gprGet r.val) s s (.gprValue (readGpr s r))
  | gprSetOut (i : Int) (v : Word) (s : State) (h : ¬ (0 ≤ i ∧ i ≤ 31)) :
      Effect (.gprSet i v) s (s.emit ⟨.advisory, .gpr, .set, i⟩) .gprDoneW
  | gprSetSlot (r : Fin 32) (v : Word) (s : State) : Effect (.gprSet r.val v) s (s.writeGpr r v) .gprDone
  | cop0GetOut (i : Int) (s : State) (h : i ∉ recognisedIndices) :
      Effect (.cop0Get i) s (s.emit ⟨.fatal, .cop0, .get, i⟩).halt .fatalAbort
  | cop0GetEntry (r : Cop0Reg) (s : State) : Effect (.cop0Get r.index) s s (.cop0Value (s.c0 r) r)
  | cop0SetOut (i : Int) (v : Word) (s : State) (h : i ∉ recognisedIndices) :
      Effect (.cop0Set i v) s (s.emit ⟨.fatal, .cop0, .set, i⟩).halt .fatalAbort
  | cop0SetReadOnly (r : Cop0Reg) (v : Word) (s : State) (h : r.ReadOnly) :
      Effect (.cop0Set r.index v) s s .cop0RoDone
  | cop0SetEntry (r : Cop0Reg) (v : Word) (s : State) (h : ¬ r.ReadOnly) :
      Effect (.cop0Set r.index v) s (s.writeCop0 r v) (.cop0Done r)
  | memLoadIn (o : Int) (s : State) (h : InBounds o) :
      Effect (.memLoadword o) s s (.memValue (s.mem.readWord o.toNat))
  | memLoadOut (o : Int) (s : State) (h : ¬ InBounds o) : Effect (.memLoadword o) s s .outOfBounds
  | memStoreIn (o : Int) (v : Word) (s : State) (h : InBounds o) :
      Effect (.memStoreword o v) s (s.writeMem o.toNat v) .memDone
  | memStoreOut (o : Int) (v : Word) (s : State) (h : ¬ InBounds o) :
      Effect (.memStoreword o v) s s .outOfBounds

/-- Every instruction has an effect on every state, and `exec` is that effect inside `operate`. -/
theorem exec_effect (i : Instr) (s : State) :
    ∃ u r, Effect i s u r ∧ exec i s = operate s (u, r) := by
  cases i with
  | gprGet i =>
    rcases gprSlot?_cases i with ⟨h, -⟩ | ⟨r, rfl, -⟩
    · exact ⟨_, _, .gprGetOut i s h, exec_gprGet_out h⟩
    · exact ⟨_, _, .gprGetSlot r s, exec_gprGet_slot r⟩
  | gprSet i v =>
    rcases gprSlot?_cases i with ⟨h, -⟩ | ⟨r, rfl, -⟩
    · exact ⟨_, _, .gprSetOut i v s h, exec_gprSet_out v h⟩
    · exact ⟨_, _, .gprSetSlot r v s, exec_gprSet_slot r v⟩
  | cop0Get i =>
    rcases cop0Lookup_cases i with ⟨h, -⟩ | ⟨r, rfl, -⟩
    · exact ⟨_, _, .cop0GetOut i s h, exec_cop0Get_out h⟩
    · exact ⟨_, _, .cop0GetEntry r s, exec_cop0Get_entry r⟩
  | cop0Set i v =>
    rcases cop0Lookup_cases i with ⟨h, -⟩ | ⟨r, rfl, -⟩
    · exact ⟨_, _, .cop0SetOut i v s h, exec_cop0Set_out v h⟩
    · by_cases h : r.ReadOnly
      · exact ⟨_, _, .cop0SetReadOnly r v s h, exec_cop0Set_readOnly v h⟩
      · exact ⟨_, _, .cop0SetEntry r v s h, exec_cop0Set_entry v h⟩
  | memLoadword o =>
    by_cases h : InBounds o
    · exact ⟨_, _, .memLoadIn o s h, exec_memLoadword_in h⟩
    · exact ⟨_, _, .memLoadOut o s h, exec_memLoadword_out h⟩
  | memStoreword o v =>
    by_cases h : InBounds o
    · exact ⟨_, _, .memStoreIn o v s h, exec_memStoreword_in v h⟩
    · exact ⟨_, _, .memStoreOut o v s h, exec_memStoreword_out v h⟩

/-- The inversion of `exec`: if it answers, the block was running and did the instruction's effect. -/
theorem exec_next_effect {i : Instr} (h : exec i s = .next t) :
    s.halted = false ∧ ∃ u r, Effect i s u r ∧ t = u.respond r := by
  obtain ⟨u, r, he, hx⟩ := exec_effect i s
  rw [hx, operate_next] at h
  exact ⟨h.1, u, r, he, h.2⟩

/-- A halted block runs nothing (60_exceptions.md R108). -/
theorem exec_halted (i : Instr) (h : s.halted = true) : exec i s = .fault .halted := by
  obtain ⟨u, r, -, hx⟩ := exec_effect i s
  rw [hx, operate_halted h]

/-- Only a running block answers. -/
theorem running_of_exec_next {i : Instr} (h : exec i s = .next t) : s.halted = false :=
  (exec_next_effect h).1

/-- Only `COP0_SET` changes a coprocessor-0 entry (10_state.md R16). -/
theorem cop0_of_exec_next {i : Instr} (h : exec i s = .next t) (hi : ∀ (a : Int) (v : Word), i ≠ .cop0Set a v) :
    t.cop0 = s.cop0 := by
  obtain ⟨-, u, r, he, rfl⟩ := exec_next_effect h
  cases he <;> first | rfl | exact absurd rfl (hi _ _)

/-- Only `MEM_STOREWORD` changes memory (20_memory.md R50). -/
theorem mem_of_exec_next {i : Instr} (h : exec i s = .next t)
    (hi : ∀ (a : Int) (v : Word), i ≠ .memStoreword a v) : t.mem = s.mem := by
  obtain ⟨-, u, r, he, rfl⟩ := exec_next_effect h
  cases he <;> first | rfl | exact absurd rfl (hi _ _)

/-! ## Runs -/

/-- The inversion of a run: if it ends, its first operation answered and the rest ran from there. -/
theorem runOps_cons_next {i : Instr} {is : List Instr} :
    runOps (i :: is) s = .next t ↔ ∃ u, exec i s = .next u ∧ runOps is u = .next t := by
  simp only [runOps]
  cases exec i s <;> simp

/-- A run without a store leaves memory (20_memory.md R50). -/
theorem mem_of_runOps_next {ops : List Instr} (h : runOps ops s = .next t)
    (hi : ∀ i ∈ ops, ∀ (a : Int) (v : Word), i ≠ .memStoreword a v) : t.mem = s.mem := by
  induction ops generalizing s with
  | nil => cases h; rfl
  | cons i is ih =>
    obtain ⟨u, h1, h2⟩ := runOps_cons_next.1 h
    rw [ih h2 fun j hj => hi j (by simp [hj]), mem_of_exec_next h1 (hi i (by simp))]

/-! ## Fetch and step -/

/-- `fetch` takes the oldest request and nothing else. -/
theorem fetch_next {i : Instr} :
    fetch s = .next (i, t) ↔
      s.halted = false ∧ ∃ w, s.requests = w :: t.requests ∧ decode w = .ok i ∧ t = s.withRequests t.requests := by
  unfold fetch
  cases hh : s.halted
  · cases hr : s.requests with
    | nil => simp
    | cons w ws =>
      cases hd : decode w with
      | error e => cases e; simp [hd]
      | ok j =>
        simp only [Bool.false_eq_true, if_false, hd, Host.Outcome.next.injEq, Prod.mk.injEq, true_and]
        constructor
        · rintro ⟨rfl, rfl⟩
          exact ⟨w, rfl, hd, rfl⟩
        · rintro ⟨w', h1, h2, h3⟩
          simp only [List.cons.injEq] at h1
          obtain ⟨rfl, rfl⟩ := h1
          rw [hd] at h2
          exact ⟨by injection h2, h3.symm⟩
  · simp

/-- The inversion of `step`: if it answers, it took a request that decodes, and ran it. -/
theorem step_next (h : step s = .next t) :
    ∃ w ws i, s.requests = w :: ws ∧ decode w = .ok i ∧ exec i (s.withRequests ws) = .next t := by
  unfold step at h
  cases hf : fetch s with
  | next p =>
    obtain ⟨i, u⟩ := p
    rw [hf] at h
    obtain ⟨-, w, hw, hd, hu⟩ := fetch_next.1 hf
    exact ⟨w, u.requests, i, hw, hd, hu ▸ h⟩
  | fault f => simp [hf] at h
  | refused r => simp [hf] at h

end Sys2Proof.Machine
end

