-- ==== Sys2Proof/Laws/PerInstr.lean ====
section
/-! SUPPORT. A family of facts about every instruction as syntax: its canonical word carries the op code of
its row of spec/opcode_table.json (spec/30_encoding.md R57, R64). -/

namespace Sys2Proof.Laws

/-- The `op` field of the canonical word is the instruction's op code, and the row of the opcode table at that
number has its mnemonic. -/
def OpField.Statement (i : Instr) : Prop :=
  (Request.unpack (encode i)).op = i.opCode ∧
    (opTable[i.opCode.toNat]?).map OpRow.mnemonic = some i.mnemonic

theorem OpField.gprGet (index : Int) : OpField.Statement (.gprGet index) := by
  simp [OpField.Statement, encode, Instr.request, Instr.opCode, opTable, Instr.mnemonic]

theorem OpField.gprSet (index : Int) (value : Word) : OpField.Statement (.gprSet index value) := by
  simp [OpField.Statement, encode, Instr.request, Instr.opCode, opTable, Instr.mnemonic]

theorem OpField.cop0Get (index : Int) : OpField.Statement (.cop0Get index) := by
  simp [OpField.Statement, encode, Instr.request, Instr.opCode, opTable, Instr.mnemonic]

theorem OpField.cop0Set (index : Int) (value : Word) : OpField.Statement (.cop0Set index value) := by
  simp [OpField.Statement, encode, Instr.request, Instr.opCode, opTable, Instr.mnemonic]

theorem OpField.memLoadword (offset : Int) : OpField.Statement (.memLoadword offset) := by
  simp [OpField.Statement, encode, Instr.request, Instr.opCode, opTable, Instr.mnemonic]

theorem OpField.memStoreword (offset : Int) (value : Word) : OpField.Statement (.memStoreword offset value) := by
  simp [OpField.Statement, encode, Instr.request, Instr.opCode, opTable, Instr.mnemonic]

end Sys2Proof.Laws
end

