-- ==== Sys2Proof/Tests/Slice0.lean ====
section
/-! SUPPORT. The model's own tests: ill-formed terms refused, words written out from the spec's encoding, one
step of each operation with results from spec/95_test_vectors.md or worked from the rules by hand, and for
every statement with hypotheses a witness that meets them together. -/

namespace Sys2Proof.Tests

open Machine

/-! ## Helpers -/

/-- A choice of the open reset parameters in which every register holds a value of its own. -/
def params : ResetParams :=
  { gpr := Vector.ofFn fun i => BitVec.ofNat 32 (100 + i.val)
    cop0 := ⟨3#32, 5#32, 6#32, 7#32, 8#32, 9#32, 11#32, 12#32, 13#32, 14#32, 15#32⟩ }

/-- A running block to start a test from. -/
def start : State := State.resetWith params

/-- A running block with bytes [01, 02, 03, 04] at offset 8. -/
def stored : State := { start with mem := [(8, 1#8), (9, 2#8), (10, 3#8), (11, 4#8)] }

/-- A running block whose slot 0 is not zero: no run reaches it. -/
def strayZero : State := { start with gpr := Vector.replicate 32 7#32 }

/-- A halted block. -/
def stopped : State := { start with halted := true }

/-- Whether a run answers, and the state it leaves passes the check. -/
def ends (o : Host.Outcome State Fault Refusal) (check : State → Bool) : Bool :=
  match o with
  | .next t => check t
  | .fault _ => false
  | .refused _ => false

/-- Whether a run stops halted. -/
def stopsHalted (o : Host.Outcome State Fault Refusal) : Bool :=
  match o with
  | .next _ => false
  | .fault .halted => true
  | .refused _ => false

/-- The word of a table row's bits decodes to the instruction. -/
def decodesTo (w : ReqWord) (i : Instr) : Bool :=
  match decode w with
  | .ok j => j == i
  | .error _ => false

/-! ## WellFormed refuses (30_encoding.md R58) -/

theorem test_negative_index_illFormed : ¬ (Instr.gprGet (-1)).WellFormed := by decide
theorem test_wide_offset_illFormed : ¬ (Instr.memLoadword (2 ^ 32)).WellFormed := by decide
theorem test_largest_index_wellFormed : (Instr.gprSet (2 ^ 32 - 1) 0#32).WellFormed := by decide

/-! ## Decoding, the words written from 30_encoding.md R56, R57 as `op ++ addr ++ wdata` -/

theorem test_decode_gprGet : decodesTo (0x00#8 ++ (0x00000004#32 ++ 0xFFFFFFFF#32)) (.gprGet 4) = true := by decide
theorem test_decode_gprSet : decodesTo 0x010000000400000064#72 (.gprSet 4 100#32) = true := by decide
theorem test_decode_cop0Get : decodesTo 0x020000000C00000000#72 (.cop0Get 12) = true := by decide
theorem test_decode_cop0Set : decodesTo 0x030000000E80001000#72 (.cop0Set 14 0x80001000#32) = true := by decide
theorem test_decode_memLoadword : decodesTo 0x040000001000000000#72 (.memLoadword 0x10) = true := by decide
theorem test_decode_memStoreword :
    decodesTo 0x0500000010DEADBEEF#72 (.memStoreword 0x10 0xDEADBEEF#32) = true := by decide
theorem test_decode_reserved : decodeTableWord 72 0x060000000000000000 = none := by decide
theorem test_decode_top_op_bit_not_ignored : decodeTableWord 72 0x800000000400000000 = none := by decide
theorem test_decode_largest_addr : decodeTableWord 72 0x00FFFFFFFF00000000 = some (.gprGet 4294967295) := by decide
theorem test_encode_worked : encode (.memStoreword 0x10 0xDEADBEEF#32) = 0x0500000010DEADBEEF#72 := by decide

/-! ## Assembly text (30_encoding.md R65, R66) -/

theorem test_assemble_worked :
    assemble "COP0_SET 14, 0x80001000".toList = some (.cop0Set 14 0x80001000#32) := by decide
theorem test_render_worked : (Instr.gprSet 4 100#32).render = "GPR_SET 4, 100".toList := by decide
theorem test_assemble_no_register_names : assemble "GPR_GET a0".toList = none := by decide
theorem test_asmNames_are_the_table : asmNames = opTable.map (·.mnemonic.toList) := by decide

/-! ## Steps. Vectors S<n>, V<n> are those of 95_test_vectors.md. -/

/-- V9: index 32 is out of range. -/
theorem test_gprGet_out_of_range :
    ends (exec (.gprGet 32) start) (fun t => t.responses == [.gprValueW 0#32] &&
      t.diagnostics == [⟨.advisory, .gpr, .get, 32⟩] && !t.halted) = true := by decide
/-- 10_state.md R11: the read path gives 0 whatever slot 0 holds. -/
theorem test_gprGet_zero_protected :
    ends (exec (.gprGet 0) strayZero) (fun t => t.responses == [.gprValue 0#32]) = true := by decide
/-- V4: the highest valid index. -/
theorem test_gprSet_highest :
    ends (exec (.gprSet 31 0x80000000#32) start) (fun t => t.x 31 == 0x80000000#32 && t.x 30 == 130#32) = true := by
  decide
/-- V12: nothing is written anywhere. -/
theorem test_gprSet_out_of_range :
    ends (exec (.gprSet 4294967295 1#32) start) (fun t => t.gpr == start.gpr &&
      t.diagnostics == [⟨.advisory, .gpr, .set, 4294967295⟩]) = true := by decide
/-- V2 for coprocessor 0, entry 11: an unwritten entry reads its reset parameter. -/
theorem test_cop0Get_reset_parameter :
    ends (exec (.cop0Get 11) start) (fun t => t.responses == [.cop0Value 11#32 .bpcm]) = true := by decide
/-- V27: index 0 is fatal. -/
theorem test_cop0Get_unrecognised :
    ends (exec (.cop0Get 0) start) (fun t => t.halted && t.responses == [.fatalAbort] &&
      t.diagnostics == [⟨.fatal, .cop0, .get, 0⟩]) = true := by decide
/-- V26: writing SR leaves cause alone. -/
theorem test_cop0Set_sr_only :
    ends (exec (.cop0Set 12 1#32) start) (fun t => t.cop0.sr == 1#32 && t.cop0.cause == 13#32 &&
      t.responses == [.cop0Done .sr]) = true := by decide
/-- V25: PRID rejects the write, with no event. -/
theorem test_cop0Set_prid :
    ends (exec (.cop0Set 15 0xFFFFFFFF#32) start) (fun t => t.cop0 == start.cop0 &&
      t.responses == [.cop0RoDone] && t.diagnostics == [] && !t.halted) = true := by decide
/-- S11: bytes [01, 02, 03, 04] load as 0x04030201. -/
theorem test_memLoadword_little_endian :
    ends (exec (.memLoadword 8) stored) (fun t => t.responses == [.memValue 0x04030201#32]) = true := by decide
/-- V45: no wrap at the top of the 32-bit range. -/
theorem test_memLoadword_no_wrap :
    ends (exec (.memLoadword 0xFFFFFFFD) start) (fun t => t.responses == [.outOfBounds] &&
      t.diagnostics == [] && !t.halted) = true := by decide
/-- S8: raw bytes [78, 56, 34, 12], and the byte after them untouched. -/
theorem test_memStoreword_bytes :
    ends (exec (.memStoreword 0 0x12345678#32) start) (fun t =>
      rawDump t.mem 0 5 == some [0x78#8, 0x56#8, 0x34#8, 0x12#8, 0xCA#8]) = true := by decide
/-- V47: a failing store writes none of its bytes. -/
theorem test_memStoreword_failing :
    ends (exec (.memStoreword 0x1FFFFD 0x11111111#32) start) (fun t => t.mem == [] &&
      t.responses == [.outOfBounds]) = true := by decide

/-- V54: storing the fill over fresh memory leaves memory equal to the reset state. -/
theorem test_canonical_memory : Memory.writeWord [] 0x10 0xCACACACA#32 = [] := by decide
/-- The last byte of memory can be dumped, the one after it not. -/
theorem test_rawDump_end : rawDump [] 0x1FFFFF 1 = some [0xCA#8] ∧ rawDump [] 0x1FFFFF 2 = none := by decide
/-- V62: with capacity 6 the fill has lengths 1, 2, 4, 6. -/
theorem test_fill_lengths :
    (List.range 4).map (fun p => (fillPasses 6 p [0xCA#8]).length) = [1, 2, 4, 6] := by decide
/-- 10_state.md R12: the sizes of the groups of conventional roles. -/
theorem test_role_group_sizes :
    [GprRole.constantZero, .assemblerTemporary, .returnValue, .argument, .temporary, .calleeSaved,
      .kernelReserved, .globalPointer, .stackPointer, .framePointer, .returnAddress].map
      (fun g => ((List.finRange 32).filter fun r => gprRole r == g).length)
      = [1, 1, 2, 4, 10, 8, 2, 1, 1, 1, 1] := by decide
/-- 30_encoding.md R60, the response of the worked example of 41_cop0_ops.md R80. -/
theorem test_response_word : (Result.cop0Value 0x10400001#32 .sr).response.pack = 0x000C10400001#48 := by decide
theorem test_response_unlisted_name : Response.unpack 0x000400000000#48 = none := by decide

/-- A presented word is the first thing the block runs after reset. -/
theorem test_step_presented :
    ends (step (State.reset.withFetchWord 72 0x010000000400000064)) (fun t => t.x 4 == 100#32) = true := by decide
/-- V76: a reserved request is refused by name. -/
theorem test_step_reserved :
    (match step (State.reset.withFetchWord 72 0x060000000000000000) with
      | .next _ => false
      | .fault _ => false
      | .refused r => r == .reservedOp 0x06#8) = true := by decide
theorem test_step_no_request :
    (match step State.reset with
      | .next _ => false
      | .fault _ => false
      | .refused r => r == .noRequest) = true := by decide
/-- The values the model names at reset (log entries 3, 4, 5), a check of the model's own choice. -/
theorem test_reset_named : State.reset.x 31 = 0#32 ∧ State.reset.cop0.sr = 0#32 ∧ State.reset.cop0.prid = 2#32 := by
  decide

/-! ## Witnesses: for each statement with hypotheses, states and operands that meet them together. -/

theorem witness_DecodeOfEncodeGivesBack :
    (Instr.gprGet 0).WellFormed ∧ (Instr.memStoreword (2 ^ 32 - 1) 0xFFFFFFFF#32).WellFormed := by decide
theorem witness_EncodeOfDecodeIsCanonical :
    decodesTo 0x00000000040000FFFF#72 (.gprGet 4) = true ∧ decodesTo 0x010000000400000064#72 (.gprSet 4 100#32) = true := by
  decide
theorem witness_ReadingRequestsIgnoreWdata :
    0x00#8 ∈ [0x00#8, 0x02#8, 0x04#8] ∧ 0x04#8 ∈ [0x00#8, 0x02#8, 0x04#8] := by decide
theorem witness_ExactlyReservedOpsRefused :
    6 ≤ ((0x060000000000000000#72).extractLsb' 64 8).toNat ∧ ((0x05FFFFFFFFFFFFFFFF#72).extractLsb' 64 8).toNat < 6 := by
  decide
theorem witness_OneTableRowPerWord :
    (opTable.map fun r => decide (r.Matches 0x03000000000000000F#72)) = [false, false, false, true, false, false] := by
  decide
theorem witness_AssembleOfRenderGivesBack : (Instr.cop0Set 4294967295 4294967295#32).WellFormed := by decide
theorem witness_StepRunsDecodedRequest :
    let s := { start with requests := [0x040000001000000000#72, 0x06#72] }
    s.halted = false ∧ s.requests = 0x040000001000000000#72 :: [0x06#72] ∧
      decodesTo 0x040000001000000000#72 (.memLoadword 0x10) = true := by decide
theorem witness_PresentedWordRunsNext :
    start.halted = false ∧ 0x05FFFFFFFFFFFFFFFF < 2 ^ 72 ∧
      decodeTableWord 72 0x05FFFFFFFFFFFFFFFF = some (.memStoreword 4294967295 0xFFFFFFFF#32) := by decide
theorem witness_ReservedRequestRefused :
    let s := { start with requests := [0x060000000000000000#72] }
    s.halted = false ∧ s.requests = 0x060000000000000000#72 :: [] ∧
      6 ≤ ((0x060000000000000000#72).extractLsb' 64 8).toNat := by decide
theorem witness_HaltedBlockHasNoStep : stopped.halted = true := by decide
theorem witness_EveryOperationCompletes : start.halted = false := by decide
theorem witness_StepAnswersOnce :
    ends (step (start.withFetchWord 72 0x000000002000000000)) (fun t => t.diagnostics.length == 1) = true ∧
      ends (step (start.withFetchWord 72 0x000000001F00000000)) (fun t => t.diagnostics == []) = true := by decide
theorem witness_StepKeepsInvariant :
    start.Inv ∧ ends (step (start.withFetchWord 72 0x020000000A00000000)) (fun t => t.halted) = true :=
  ⟨⟨by decide, by decide, by decide, by decide, by decide, by decide⟩, by decide⟩
theorem witness_RequestsRunInOrder :
    let ops := [Instr.gprSet 1 5#32, .cop0Get 0]
    let s := { start with requests := ops.map encode ++ [0x07#72] }
    (∀ i ∈ ops, i.WellFormed) ∧ s.requests = ops.map encode ++ [0x07#72] := by decide
theorem witness_RunEndsAtFirstFatal :
    start.halted = false ∧
      (∀ i ∈ [Instr.gprGet 1, .cop0Get 10].dropLast, i.tabledStatus ≠ .fatal) ∧
      (∃ i ∈ [Instr.gprGet 1, .cop0Get 10, .gprGet 0].dropLast, i.tabledStatus = .fatal) := by decide
theorem witness_SignalsAreAsTabled :
    ends (exec (.memLoadword 0x1FFFFD) start) (fun t => t.responses == [.outOfBounds]) = true ∧
      ends (exec (.cop0Set 16 0#32) start) (fun t => t.halted) = true ∧
      ends (exec (.gprSet (-1) 0#32) start) (fun t => t.responses == [.gprDoneW]) = true := by decide
theorem witness_FailuresChangeNoStorage :
    start.halted = false ∧ (Instr.memStoreword 0x1FFFFD 0#32).tabledStatus ≠ .ok ∧
      (Instr.gprSet 32 0#32).tabledStatus ≠ .ok ∧ (Instr.cop0Set 4 0#32).tabledStatus ≠ .ok := by decide
theorem witness_OperationsKeepOtherComponents :
    ends (exec (.gprSet 1 0#32) start) (fun _ => true) = true ∧
      (Instr.gprSet 1 0#32).component ≠ .memory ∧ (Instr.gprSet 1 0#32).component ≠ .systemControl ∧
      ends (exec (.memLoadword 0) start) (fun _ => true) = true ∧
      (Instr.memLoadword 0).component ≠ .generalRegisters := by decide
theorem witness_OperationsReadOwnComponentOnly :
    start.AgreeOn stored (Instr.gprGet 5).component ∧ start.halted = stored.halted ∧ start.mem ≠ stored.mem ∧
      ends (exec (.gprGet 5) start) (fun t => t.responses == [.gprValue 105#32]) = true :=
  ⟨rfl, rfl, by decide, by decide⟩
theorem witness_GprGetAnswersRegister :
    start.halted = false ∧ ¬ ((0 : Int) ≤ 32 ∧ (32 : Int) ≤ 31) ∧ ¬ ((0 : Int) ≤ -1 ∧ (-1 : Int) ≤ 31) ∧
      (31 : Fin 32) ≠ 0 ∧ (31 : Int) = ((31 : Fin 32).val : Int) := by decide
theorem witness_GprSetStoresRegister :
    start.halted = false ∧ ((0 : Int) ≤ 0 ∧ (0 : Int) ≤ 31) ∧ ¬ ((0 : Int) ≤ 32 ∧ (32 : Int) ≤ 31) := by decide
theorem witness_RegisterZeroIsHardwired :
    start.x 0 = 0#32 ∧ ends (exec (.gprSet 0 5#32) start) (fun t => t.x 0 == 0#32) = true ∧
      strayZero.x 0 ≠ 0#32 ∧ ends (exec (.gprSet 31 5#32) strayZero) (fun t => t.x 0 == 0#32) = true ∧
      strayZero.halted = false := by decide
theorem witness_GprReadAfterWrite : (31 : Fin 32) ≠ 0 ∧ start.halted = false := by decide
theorem witness_GprHoldsLatestWrite :
    (5 : Fin 32) ≠ 0 ∧
      ends (runOps [.gprSet 5 0x11#32, .gprSet 37 0x33#32, .gprSet 5 0x22#32] start) (fun t => t.x 5 == 0x22#32) = true := by
  decide
theorem witness_Cop0TableIsAsListed :
    start.halted = false ∧ cop0Lookup 15 = some ⟨15, .prid, true⟩ ∧ cop0Lookup 3 = some ⟨3, .bpc, false⟩ ∧
      cop0Lookup 10 = none ∧ cop0Lookup 16 = none ∧ cop0Lookup (-1) = none := by decide
theorem witness_Cop0GetAnswersEntry :
    start.halted = false ∧ (3 : Int) = (Cop0Reg.bpc.index : Int) ∧ (16 : Int) ∉ recognisedIndices ∧
      (-1 : Int) ∉ recognisedIndices := by decide
theorem witness_Cop0SetStoresEntry :
    start.halted = false ∧ Cop0Reg.epc ≠ .badVaddr ∧ Cop0Reg.epc ≠ .prid ∧ (14 : Int) = (Cop0Reg.epc.index : Int) ∧
      (0xFFFFFFFF : Int) ∉ recognisedIndices := by decide
theorem witness_Cop0ReadAfterWrite :
    Cop0Reg.cause ≠ .badVaddr ∧ Cop0Reg.cause ≠ .prid ∧ start.halted = false := by decide
theorem witness_ReadOnlyEntryRejectsWrite :
    (Cop0Reg.prid = .badVaddr ∨ Cop0Reg.prid = .prid) ∧ start.halted = false := by decide
theorem witness_Cop0HoldsLatestWrite :
    ends (runOps [.cop0Set 12 1#32, .cop0Set 8 2#32, .cop0Set 12 3#32] start) (fun t => t.cop0.sr == 3#32) = true := by
  decide
theorem witness_ReadOnlyEntriesArePermanent :
    (Cop0Reg.badVaddr = .badVaddr ∨ Cop0Reg.badVaddr = .prid) ∧ Cop0Reg.sr ≠ .badVaddr ∧ Cop0Reg.sr ≠ .prid ∧
      start.halted = false ∧
      (∀ (a : Int) (v : Word), Instr.memStoreword 0 9#32 ≠ .cop0Set a v) ∧
      ends (exec (.memStoreword 0 9#32) start) (fun t => t.cop0 == start.cop0) = true ∧
      ends (step { start with requests := [encode (.cop0Set 15 9#32)] }) (fun t => t.cop0 == start.cop0) = true ∧
      ends (runOps [.cop0Set 15 9#32, .cop0Set 8 9#32] (State.resetWith params)) (fun t => t.cop0.prid == 15#32) = true := by
  refine ⟨by decide, by decide, by decide, by decide, fun _ _ => nofun, by decide, by decide, by decide⟩
theorem witness_UnrecognisedIndexEndsRun :
    start.halted = false ∧ (10 : Int) ∉ recognisedIndices ∧
      stopsHalted (runOps [.cop0Get 10, .gprGet 0] start) = true := by decide
theorem witness_BoundsTestIsUnbounded :
    start.halted = false ∧ ((0 : Int) ≤ 0x1FFFFC ∧ (0x1FFFFC : Int) ≤ 0x1FFFFC) ∧
      ((0x1FFFFD : Int) < 0 ∨ (0x1FFFFC : Int) < 0x1FFFFD) ∧ ((-1 : Int) < 0 ∨ (0x1FFFFC : Int) < -1) := by decide
theorem witness_LoadWordAnswersBytes :
    start.halted = false ∧ ((0 : Int) ≤ 0x1FFFFC ∧ (0x1FFFFC : Int) + 3 < 0x200000) ∧
      ¬ ((0 : Int) ≤ 0x1FFFFD ∧ (0x1FFFFD : Int) + 3 < 0x200000) := by decide
theorem witness_LoadComposesLittleEndian : stored.halted = false ∧ 8 + 3 < 0x200000 := by decide
theorem witness_StoreWordWritesBytes :
    stored.halted = false ∧ stored.mem.wf ∧ ((0 : Int) ≤ 9 ∧ (9 : Int) + 3 < 0x200000) ∧
      ¬ ((0 : Int) ≤ 0x1FFFFD ∧ (0x1FFFFD : Int) + 3 < 0x200000) := by decide
theorem witness_StoreDecomposesLittleEndian :
    stored.halted = false ∧ stored.mem.wf ∧ 0x1FFFFC + 3 < 0x200000 := by decide
theorem witness_LoadsAndStoresAreIdempotent :
    stored.halted = false ∧ stored.mem.wf ∧ 0 + 3 < 0x200000 ∧ 0x1FFFFC + 3 < 0x200000 ∧
      (∀ i ∈ [Instr.gprSet 1 5#32, .memLoadword 0x1FFFFD], ∀ (a : Int) (v : Word), i ≠ .memStoreword a v) ∧
      ends (runOps [.memLoadword 0x1FFFFC, .gprSet 1 5#32, .memLoadword 0x1FFFFD] stored) (fun t => !t.halted) =
        true := by
  refine ⟨by decide, by decide, by decide, by decide, ?_, by decide⟩
  simp
theorem witness_DisjointStoresCommute :
    stored.mem.wf ∧ ((8 : Int) + 4 ≤ 12 ∨ (12 : Int) + 4 ≤ 8) ∧
      ends (runOps [.memStoreword 8 1#32, .memStoreword 12 2#32] stored) (fun t => t.byte 12 == 2#8) = true ∧
      ends (runOps [.memStoreword 12 2#32, .memStoreword 8 1#32] stored) (fun t => t.byte 12 == 2#8) = true := by
  decide
theorem witness_MemoryHoldsLatestStore :
    stored.mem.wf ∧
      ends (runOps [.memStoreword 0 0x11223344#32, .memStoreword 2 0xAABBCCDD#32] stored) (fun t =>
        rawDump t.mem 0 6 == some [0x44#8, 0x33#8, 0xDD#8, 0xCC#8, 0xBB#8, 0xAA#8]) = true := by decide
theorem witness_BoundsFailureIsClean :
    ¬ ((0 : Int) ≤ 0x200000 ∧ (0x200000 : Int) + 3 < 0x200000) ∧
      (Instr.memLoadword 0x200000 = .memLoadword 0x200000 ∨ Instr.memLoadword 0x200000 = .memStoreword 0x200000 0#32) ∧
      start.halted = false := by decide
theorem witness_ResetLeavesTheResetState : (31 : Fin 32) ≠ 0 ∧ 0x1FFFFF < 0x200000 := by decide
theorem witness_DoublingFillIsUniform : 1 ≤ 6 ∧ 21 ≤ 21 := by decide
theorem witness_ResetMemoryIsPowerOnFill : 0x1FFFFF < 0x200000 := by decide
theorem witness_FreshMemoryLoadsFill :
    (∀ i ∈ [Instr.gprSet 1 5#32, .memLoadword 0x200000], ∀ (a : Int) (v : Word), i ≠ .memStoreword a v) ∧
      0x1FFFFC + 3 < 0x200000 ∧
      ends (runOps [.gprSet 1 5#32, .memLoadword 0x200000] (State.resetWith params)) (fun t => !t.halted) = true := by
  refine ⟨?_, by decide, by decide⟩
  intro i hi a v
  simp only [List.mem_cons, List.not_mem_nil, or_false] at hi
  rcases hi with rfl | rfl <;> simp

end Sys2Proof.Tests
end

section
/-! PROOFS. The statements about the scope of a step (spec/00_scope.md R2, R3): one request, one answer, at most
one event; the requests in the order issued; and an operation that touches and reads its own component only.
First what `Effect` says, constructor by constructor, then how `step` reaches `exec`, then the four statements. -/

namespace Sys2Proof.Machine

variable {s s' t u : State} {i : Instr} {r : Result}

/-! ## What an effect does -/

/-- An effect of an instruction is the one `exec` has: the converse of `exec_effect`. -/
theorem Effect.exec_eq (h : Effect i s u r) : exec i s = operate s (u, r) := by
  cases h with
  | gprGetOut _ _ h => exact exec_gprGet_out h
  | gprGetSlot r => exact exec_gprGet_slot r
  | gprSetOut _ v _ h => exact exec_gprSet_out v h
  | gprSetSlot r v => exact exec_gprSet_slot r v
  | cop0GetOut _ _ h => exact exec_cop0Get_out h
  | cop0GetEntry r => exact exec_cop0Get_entry r
  | cop0SetOut _ v _ h => exact exec_cop0Set_out v h
  | cop0SetReadOnly _ v _ h => exact exec_cop0Set_readOnly v h
  | cop0SetEntry _ v _ h => exact exec_cop0Set_entry v h
  | memLoadIn _ _ h => exact exec_memLoadword_in h
  | memLoadOut _ _ h => exact exec_memLoadword_out h
  | memStoreIn _ v _ h => exact exec_memStoreword_in v h
  | memStoreOut _ v _ h => exact exec_memStoreword_out v h

/-- In a running block an effect is what `exec` answers. -/
theorem Effect.exec_next (h : Effect i s u r) (hs : s.halted = false) : exec i s = .next (u.respond r) := by
  rw [h.exec_eq, operate_running hs]

/-- An effect takes no request. -/
theorem Effect.requests_eq (h : Effect i s u r) : u.requests = s.requests := by
  cases h <;> rfl

/-- An effect itself answers nothing: `operate` gives its result to the caller. -/
theorem Effect.responses_eq (h : Effect i s u r) : u.responses = s.responses := by
  cases h <;> rfl

/-- An effect is silent or emits one event, of the severity that comes with the result and with the operand's
index; the table of 60_exceptions.md R100 says which. -/
theorem Effect.silent_or_event (h : Effect i s u r) :
    (r.severity? = none ∧ u.diagnostics = s.diagnostics ∧ i.tabledEvents = []) ∨
      ∃ d : Diagnostic, r.severity? = some d.severity ∧ d.index = i.addr ∧
        u.diagnostics = s.diagnostics ++ [d] ∧ i.tabledEvents = [d] := by
  cases h with
  | gprGetOut _ _ h => exact .inr ⟨_, rfl, rfl, rfl, if_neg h⟩
  | gprGetSlot r => exact .inl ⟨rfl, rfl, if_pos (by omega)⟩
  | gprSetOut _ _ _ h => exact .inr ⟨_, rfl, rfl, rfl, if_neg h⟩
  | gprSetSlot r => exact .inl ⟨rfl, rfl, if_pos (by omega)⟩
  | cop0GetOut _ _ h => exact .inr ⟨_, rfl, rfl, rfl, if_neg h⟩
  | cop0GetEntry r => exact .inl ⟨rfl, rfl, if_pos (cop0_index_recognised r)⟩
  | cop0SetOut _ _ _ h => exact .inr ⟨_, rfl, rfl, rfl, if_neg h⟩
  | cop0SetReadOnly r => exact .inl ⟨rfl, rfl, if_pos (cop0_index_recognised r)⟩
  | cop0SetEntry r => exact .inl ⟨rfl, rfl, if_pos (cop0_index_recognised r)⟩
  | memLoadIn | memLoadOut | memStoreIn | memStoreOut => exact .inl ⟨rfl, rfl, rfl⟩

/-- The events an effect emits are those of the table, whatever the state (60_exceptions.md R100). -/
theorem Effect.diagnostics_eq (h : Effect i s u r) : u.diagnostics = s.diagnostics ++ i.tabledEvents := by
  obtain ⟨-, hd, ht⟩ | ⟨d, -, -, hd, ht⟩ := h.silent_or_event <;> simp [hd, ht]

/-- The pending requests play no part in an effect. -/
theorem Effect.withRequests (h : Effect i s u r) (ws : List ReqWord) :
    Effect i (s.withRequests ws) (u.withRequests ws) r := by
  cases h with
  | gprGetOut a _ h => exact .gprGetOut a _ h
  | gprGetSlot r => exact .gprGetSlot r (s.withRequests ws)
  | gprSetOut a v _ h => exact .gprSetOut a v _ h
  | gprSetSlot r v => exact .gprSetSlot r v _
  | cop0GetOut a _ h => exact .cop0GetOut a _ h
  | cop0GetEntry r => exact .cop0GetEntry r (s.withRequests ws)
  | cop0SetOut a v _ h => exact .cop0SetOut a v _ h
  | cop0SetReadOnly r v _ h => exact .cop0SetReadOnly r v _ h
  | cop0SetEntry r v _ h => exact .cop0SetEntry r v _ h
  | memLoadIn o _ h => exact .memLoadIn o (s.withRequests ws) h
  | memLoadOut o _ h => exact .memLoadOut o _ h
  | memStoreIn o v _ h => exact .memStoreIn o v _ h
  | memStoreOut o v _ h => exact .memStoreOut o v _ h

/-- The read path sees the general registers only. -/
theorem readGpr_congr (h : s.gpr = s'.gpr) (r : Fin 32) : readGpr s r = readGpr s' r := by
  simp [readGpr, State.x, h]

/-- The value an entry reads is a matter of the coprocessor-0 file only. -/
theorem c0_congr (h : s.cop0 = s'.cop0) (r : Cop0Reg) : s.c0 r = s'.c0 r := by
  simp [State.c0, h]

/-- The write path makes equal register files from equal register files. -/
theorem writeGpr_gpr_congr (h : s.gpr = s'.gpr) (r : Fin 32) (v : Word) :
    (s.writeGpr r v).gpr = (s'.writeGpr r v).gpr := by
  simp [State.writeGpr, h]

/-- An effect reads its own component only: on a block that agrees there it is an effect with the same result,
and the blocks left agree there (00_scope.md R2). -/
theorem Effect.of_agreeOn (h : Effect i s u r) (ha : s.AgreeOn s' i.component) (hh : s.halted = s'.halted) :
    ∃ u', Effect i s' u' r ∧ u.AgreeOn u' i.component ∧ u.halted = u'.halted := by
  cases h with
  | gprGetOut a _ h => exact ⟨_, .gprGetOut a s' h, ha, hh⟩
  | gprGetSlot r => exact ⟨s', readGpr_congr ha r ▸ .gprGetSlot r s', ha, hh⟩
  | gprSetOut a v _ h => exact ⟨_, .gprSetOut a v s' h, ha, hh⟩
  | gprSetSlot r v => exact ⟨_, .gprSetSlot r v s', writeGpr_gpr_congr ha r v, hh⟩
  | cop0GetOut a _ h => exact ⟨_, .cop0GetOut a s' h, ha, rfl⟩
  | cop0GetEntry r => exact ⟨s', c0_congr ha r ▸ .cop0GetEntry r s', ha, hh⟩
  | cop0SetOut a v _ h => exact ⟨_, .cop0SetOut a v s' h, ha, rfl⟩
  | cop0SetReadOnly r v _ h => exact ⟨s', .cop0SetReadOnly r v s' h, ha, hh⟩
  | cop0SetEntry r v _ h => exact ⟨_, .cop0SetEntry r v s' h, congrArg (Cop0File.write · r v) ha, hh⟩
  | memLoadIn o _ h =>
    have hm : s.mem = s'.mem := ha
    exact ⟨s', hm ▸ .memLoadIn o s' h, ha, hh⟩
  | memLoadOut o _ h => exact ⟨s', .memLoadOut o s' h, ha, hh⟩
  | memStoreIn o v _ h => exact ⟨_, .memStoreIn o v s' h, congrArg (Memory.writeWord · o.toNat v) ha, hh⟩
  | memStoreOut o v _ h => exact ⟨s', .memStoreOut o v s' h, ha, hh⟩

/-! ## What an operation leaves unchanged, beside `cop0_of_exec_next` and `mem_of_exec_next` -/

/-- Only `GPR_SET` changes a general register (10_state.md R13). -/
theorem gpr_of_exec_next (h : exec i s = .next t) (hi : ∀ (a : Int) (v : Word), i ≠ .gprSet a v) :
    t.gpr = s.gpr := by
  obtain ⟨-, u, r, he, rfl⟩ := exec_next_effect h
  cases he with
  | gprSetSlot => exact absurd rfl (hi _ _)
  | _ => rfl

/-- Only a coprocessor-0 operation sets the halt latch (60_exceptions.md R104). -/
theorem halted_of_exec_next (h : exec i s = .next t) (hi : i.component ≠ .systemControl) :
    t.halted = s.halted := by
  obtain ⟨-, u, r, he, rfl⟩ := exec_next_effect h
  cases he with
  | cop0GetOut | cop0SetOut => exact absurd rfl hi
  | _ => rfl

/-- No operation takes a request: `fetch` does. -/
theorem requests_of_exec_next (h : exec i s = .next t) : t.requests = s.requests := by
  obtain ⟨-, u, r, he, rfl⟩ := exec_next_effect h
  exact he.requests_eq

/-! ## From the request to the operation -/

/-- The canonical word of a well-formed operation decodes to it (30_encoding.md R64). -/
theorem decode_encode (h : i.WellFormed) : decode (encode i) = .ok i := by
  have ha := Instr.addr_field h
  cases i <;>
    simpa [encode, Instr.request, Request.operation, Instr.opCode, Instr.wdata, Instr.addr] using ha

/-- A step is the operation its oldest request spells, on the state without that request; a halted block stops
either way (30_encoding.md R55). -/
theorem step_of_decode {w : ReqWord} {ws : List ReqWord} (hr : s.requests = w :: ws) (hd : decode w = .ok i) :
    step s = exec i (s.withRequests ws) := by
  cases hh : s.halted with
  | true => rw [exec_halted i (s := s.withRequests ws) hh]; simp [step, fetch, hh]
  | false => simp [step, fetch, hh, hr, hd]

/-- What an operation does in a running block is the same whatever requests are pending, and they stay. -/
theorem exec_withRequests (i : Instr) (hs : s.halted = false) :
    ∃ t : State, ∀ ws, exec i (s.withRequests ws) = .next (t.withRequests ws) := by
  obtain ⟨u, r, he, -⟩ := exec_effect i s
  exact ⟨u.respond r, fun ws => (he.withRequests ws).exec_next hs⟩

theorem runSteps_succ_of_next (k : Nat) (h : step s = .next t) : runSteps (k + 1) s = runSteps k t := by
  simp [runSteps, h]

theorem runSteps_succ_of_fault (k : Nat) {f : Fault} (h : step s = .fault f) : runSteps (k + 1) s = .fault f := by
  simp [runSteps, h]

theorem runOps_cons_of_next (is : List Instr) (h : exec i s = .next t) : runOps (i :: is) s = runOps is t := by
  simp [runOps, h]

theorem runOps_cons_of_fault (is : List Instr) {f : Fault} (h : exec i s = .fault f) :
    runOps (i :: is) s = .fault f := by
  simp [runOps, h]

/-- Stepping through the canonical words of a list of operations is the run of those operations. -/
theorem runSteps_encode (rest : List ReqWord) (ops : List Instr) (hops : ∀ i ∈ ops, i.WellFormed) (s : State)
    (hr : s.requests = ops.map encode ++ rest) : runSteps ops.length s = runOps ops (s.withRequests rest) := by
  induction ops generalizing s with
  | nil =>
    have hs : s.withRequests rest = s := by rw [← show s.requests = rest from hr]; rfl
    rw [hs]; rfl
  | cons i is ih =>
    obtain ⟨hi, his⟩ := List.forall_mem_cons.1 hops
    have hstep := step_of_decode hr (decode_encode hi)
    cases hs : s.halted with
    | true =>
      have hstop (ws : List ReqWord) : exec i (s.withRequests ws) = .fault .halted := exec_halted i hs
      rw [List.length_cons, runSteps_succ_of_fault _ (hstep.trans (hstop _)), runOps_cons_of_fault is (hstop rest)]
    | false =>
      obtain ⟨t, ht⟩ := exec_withRequests i hs
      rw [List.length_cons, runSteps_succ_of_next _ (hstep.trans (ht _)), runOps_cons_of_next is (ht rest)]
      exact ih his _ rfl

/-! ## The statements -/

/-- Settles O15, from the inversion of `step` and what the effect of the operation emits. -/
theorem stepAnswersOnce : Obligations.StepAnswersOnce := by
  intro s t h
  obtain ⟨w, ws, i, hreq, hdec, hexec⟩ := step_next h
  obtain ⟨-, u, r, he, rfl⟩ := exec_next_effect hexec
  refine ⟨w, i, r, ?_, hdec, congrArg (· ++ [r]) he.responses_eq, ?_⟩
  · rw [hreq, State.respond_requests, he.requests_eq, State.withRequests_requests]
  · obtain ⟨hr, hd, -⟩ | ⟨d, hr, hi, hd, -⟩ := he.silent_or_event
    · exact .inl ⟨hr, hd⟩
    · exact .inr ⟨d, hr, hi, hd⟩

/-- Settles O18, by induction on the operations: a step takes the head's word, and what the operation does is
the same whatever is pending behind it. -/
theorem requestsRunInOrder : Obligations.RequestsRunInOrder :=
  fun ops rest s hops hr => runSteps_encode rest ops hops s hr

/-- Settles O22: each storage has one operation that changes it. -/
theorem operationsKeepOtherComponents : Obligations.OperationsKeepOtherComponents := by
  intro i s t h
  refine ⟨fun hi => gpr_of_exec_next h ?_, fun hi => ⟨cop0_of_exec_next h ?_, halted_of_exec_next h hi⟩,
    fun hi => mem_of_exec_next h ?_, ?_, requests_of_exec_next h⟩
  · rintro a v rfl; exact hi rfl
  · rintro a v rfl; exact hi rfl
  · rintro a v rfl; exact hi rfl
  · rintro ⟨a, rfl | rfl | rfl⟩ <;>
      exact ⟨gpr_of_exec_next h nofun, cop0_of_exec_next h nofun, mem_of_exec_next h nofun⟩

/-- Settles O23: the effect on the one block is an effect on the other, and the events are the table's. -/
theorem operationsReadOwnComponentOnly : Obligations.OperationsReadOwnComponentOnly := by
  intro i s s' t ha hh h
  obtain ⟨hs, u, r, he, rfl⟩ := exec_next_effect h
  obtain ⟨u', he', hau, hhu⟩ := he.of_agreeOn ha hh
  refine ⟨u'.respond r, r, i.tabledEvents, he'.exec_next (hh ▸ hs), ?_, hhu,
    congrArg (· ++ [r]) he.responses_eq, congrArg (· ++ [r]) he'.responses_eq, he.diagnostics_eq,
    he'.diagnostics_eq⟩
  cases i <;> exact hau

end Sys2Proof.Machine
end

section
/-! PROOFS. The statements about the state (spec/10_state.md): the invariant of the reachable states, register 0,
read after write in both register files, the read-only entries, and memory after reset. First what an effect
keeps, the rules for runs and the doubling copy in closed form, then the statements. -/

namespace Sys2Proof.Machine

variable {s t u : State} {i : Instr} {r : Result}

/-! ## What an effect keeps -/

/-- No effect makes a zero register 0 anything else (10_state.md R11). -/
theorem Effect.x_zero (h : Effect i s u r) (h0 : s.x 0 = 0#32) : u.x 0 = 0#32 := by
  cases h with
  | gprSetSlot q v => simp
  | _ => exact h0

/-- A store in bounds keeps the canonical form, and nothing else touches memory (20_memory.md R41). -/
theorem Effect.mem_wf (h : Effect i s u r) (hm : s.mem.wf) : u.mem.wf := by
  cases h with
  | memStoreIn o v _ hb =>
    obtain ⟨hlo, hhi⟩ := hb
    exact Memory.wf_writeWord v hm (by omega)
  | _ => exact hm

/-- An effect on a running block sets the halt latch exactly when its result is `FatalAbort` (10_state.md R24). -/
theorem Effect.halted_iff (h : Effect i s u r) (hs : s.halted = false) : u.halted = true ↔ r = .fatalAbort := by
  cases h with
  | cop0GetOut | cop0SetOut => exact iff_of_true rfl rfl
  | _ => exact iff_of_false (by simp [hs]) (by simp)

/-- The read-only entries have no write path (10_state.md R16). -/
theorem Effect.c0_readOnly (h : Effect i s u r) {q : Cop0Reg} (hq : q.ReadOnly) : u.c0 q = s.c0 q := by
  cases h with
  | cop0SetEntry p v _ hp =>
    have hne : q ≠ p := fun e => hp (e ▸ hq)
    rw [State.writeCop0_c0, if_neg hne]
  | _ => rfl

/-- Every event of the table is one the block can emit (60_exceptions.md R104, R105). -/
theorem proper_of_mem_tabledEvents {d : Diagnostic} (h : d ∈ i.tabledEvents) : d.Proper := by
  cases i with
  | gprGet a | gprSet a v =>
    obtain ⟨ha, rfl⟩ : ¬ (0 ≤ a ∧ a ≤ 31) ∧ d = _ := by simpa [Instr.tabledEvents] using h
    exact .inl ⟨rfl, rfl, ha⟩
  | cop0Get a | cop0Set a v =>
    obtain ⟨ha, rfl⟩ : a ∉ recognisedIndices ∧ d = _ := by simpa [Instr.tabledEvents] using h
    exact .inr ⟨rfl, rfl, ha⟩
  | memLoadword | memStoreword => cases h

/-- The events of an operation are that of its result, or none (30_encoding.md R62). -/
theorem Effect.tabledEvents_severity (h : Effect i s u r) :
    i.tabledEvents.map (·.severity) = [r].filterMap Result.severity? := by
  obtain ⟨hr, -, ht⟩ | ⟨d, hr, -, -, ht⟩ := h.silent_or_event <;> simp [hr, ht]

/-! ## The invariant -/

/-- The invariant does not speak of the pending requests. -/
theorem State.Inv.withRequests (h : s.Inv) (ws : List ReqWord) : (s.withRequests ws).Inv :=
  ⟨h.regZero, h.memWf, h.latch, h.abortLast, h.stream, h.proper⟩

/-- A running block has not answered `FatalAbort`. -/
theorem State.Inv.fatalAbort_notMem (h : s.Inv) (hs : s.halted = false) : Result.fatalAbort ∉ s.responses :=
  fun hm => by simp [h.latch.2 hm] at hs

/-- An effect on a running block, with its answer, keeps the invariant. -/
theorem Effect.inv (h : Effect i s u r) (hi : s.Inv) (hs : s.halted = false) : (u.respond r).Inv where
  regZero := h.x_zero hi.regZero
  memWf := h.mem_wf hi.memWf
  latch := by
    have hnone := hi.fatalAbort_notMem hs
    simp [h.responses_eq, hnone, h.halted_iff hs, eq_comm]
  abortLast := by
    simpa [h.responses_eq] using hi.fatalAbort_notMem hs
  stream := by
    simp only [State.respond_diagnostics, State.respond_responses, h.diagnostics_eq, h.responses_eq,
      List.map_append, List.filterMap_append, hi.stream, h.tabledEvents_severity]
  proper d hd := by
    rw [State.respond_diagnostics, h.diagnostics_eq, List.mem_append] at hd
    exact hd.elim (hi.proper d) proper_of_mem_tabledEvents

/-! ## Runs -/

/-- What every operation keeps, every run keeps. -/
theorem runOps_induction {P : State → Prop} {ops : List Instr}
    (hexec : ∀ (i : Instr) (s t : State), P s → exec i s = .next t → P t) (hs : P s)
    (h : runOps ops s = .next t) : P t := by
  induction ops generalizing s with
  | nil => cases h; exact hs
  | cons i is ih =>
    obtain ⟨u, hu, hrest⟩ := runOps_cons_next.1 h
    exact ih (hexec i s u hs hu) hrest

/-- In a running block a run goes on from the effect of its first operation. -/
theorem Effect.runOps_cons {is : List Instr} (h : Effect i s u r) (hs : s.halted = false) :
    runOps (i :: is) s = runOps is (u.respond r) :=
  runOps_cons_of_next is (h.exec_next hs)

/-- No operation changes a read-only entry. -/
theorem c0_readOnly_of_exec_next (h : exec i s = .next t) {q : Cop0Reg} (hq : q.ReadOnly) :
    t.c0 q = s.c0 q := by
  obtain ⟨-, u, r, he, rfl⟩ := exec_next_effect h
  exact he.c0_readOnly hq

/-- No step changes a read-only entry. -/
theorem c0_readOnly_of_step_next (h : step s = .next t) {q : Cop0Reg} (hq : q.ReadOnly) :
    t.c0 q = s.c0 q := by
  obtain ⟨w, ws, i, -, -, hexec⟩ := step_next h
  exact c0_readOnly_of_exec_next hexec hq

/-- No run changes a read-only entry. -/
theorem c0_readOnly_of_runOps_next {ops : List Instr} (h : runOps ops s = .next t) {q : Cop0Reg}
    (hq : q.ReadOnly) : t.c0 q = s.c0 q :=
  runOps_induction (P := fun t => t.c0 q = s.c0 q)
    (fun _ _ _ hp he => (c0_readOnly_of_exec_next he hq).trans hp) rfl h

/-! ## The doubling copy -/

/-- A pass over a uniform prefix doubles it, cut short at the capacity (10_state.md R31). -/
theorem fillPass_replicate {cap n : Nat} (b : Byte) (h : n ≤ cap) :
    fillPass cap (List.replicate n b) = List.replicate (min cap (2 * n)) b := by
  rw [fillPass, List.length_replicate, List.take_replicate, List.replicate_append_replicate]
  congr 1
  omega

/-- The passes over a uniform prefix in closed form: the length doubles with each, up to the capacity. -/
theorem fillPasses_replicate {cap n : Nat} (b : Byte) (h : n ≤ cap) (p : Nat) :
    fillPasses cap p (List.replicate n b) = List.replicate (min cap (2 ^ p * n)) b := by
  induction p generalizing n with
  | zero => simp [fillPasses, h]
  | succ p ih =>
    rw [fillPasses, List.length_replicate]
    split
    · rw [fillPass_replicate b h, ih (Nat.min_le_left _ _)]
      congr 1
      have hcap : cap ≤ 2 ^ p * cap := Nat.le_mul_of_pos_left cap (Nat.two_pow_pos p)
      rw [← Nat.mul_min_mul_left, ← Nat.min_assoc, Nat.min_eq_left hcap, ← Nat.mul_assoc, ← Nat.pow_succ]
    · have hn : n = cap := by omega
      have hcap : cap ≤ 2 ^ (p + 1) * cap := Nat.le_mul_of_pos_left cap (Nat.two_pow_pos _)
      rw [hn, Nat.min_eq_left hcap]

/-- The whole fill of a buffer is uniform. -/
theorem powerOnFill_eq_replicate {cap : Nat} (h : 1 ≤ cap) :
    powerOnFill cap = List.replicate cap Config.fill0 := by
  have hfull : cap ≤ 2 ^ cap * 1 := by simpa using Nat.lt_two_pow_self.le
  rw [powerOnFill, ← List.replicate_one, fillPasses_replicate _ h, Nat.min_eq_left hfull]

/-- A word of memory with nothing listed is four fill bytes. -/
theorem Memory.readWord_nil (o : Nat) : Memory.readWord [] o = 0xCACACACA#32 := by
  simp only [Memory.readWord, Memory.byteAt_nil]
  decide

/-! ## The statements -/

/-- Settles O16: a step is the effect of one operation on a running block, and the effect keeps each part. -/
theorem stepKeepsInvariant : Obligations.StepKeepsInvariant := by
  intro s t hi h
  obtain ⟨w, ws, i, -, -, hexec⟩ := step_next h
  obtain ⟨hs, u, r, he, rfl⟩ := exec_next_effect hexec
  exact he.inv (hi.withRequests ws) hs

/-- Settles O26: the write path zeroes slot 0, every other operation leaves it, and the read path ignores it. -/
theorem registerZeroIsHardwired : Obligations.RegisterZeroIsHardwired := by
  refine ⟨fun p => by simp, fun i s t h0 h => ?_, fun index v s t hlo hhi h => ?_, fun s hs => ?_⟩
  · obtain ⟨-, u, r, he, rfl⟩ := exec_next_effect h
    exact he.x_zero h0
  · obtain ⟨-, u, r, he, rfl⟩ := exec_next_effect h
    cases he with
    | gprSetOut _ _ _ hout => exact absurd ⟨hlo, hhi⟩ hout
    | gprSetSlot q => simp
  · exact (Effect.gprGetSlot 0 s).exec_next hs

/-- Settles O27, by running the three operations: the slot read holds the second value. -/
theorem gprReadAfterWrite : Obligations.GprReadAfterWrite := by
  intro r v w s hr hs
  rw [(Effect.gprSetSlot r w s).runOps_cons, (Effect.gprSetSlot r v _).runOps_cons,
    (Effect.gprGetSlot r _).runOps_cons]
  · exact ⟨_, rfl, by simp [readGpr_of_ne hr, hr]⟩
  all_goals exact hs

/-- Settles O32, by running the two operations: the entry read holds the value. -/
theorem cop0ReadAfterWrite : Obligations.Cop0ReadAfterWrite := by
  intro r v s hbad hprid hs
  have hr : ¬ r.ReadOnly := not_or.2 ⟨hbad, hprid⟩
  rw [(Effect.cop0SetEntry r v s hr).runOps_cons, (Effect.cop0GetEntry r _).runOps_cons]
  · exact ⟨_, rfl, by simp⟩
  all_goals exact hs

/-- Settles O35: the one write path of the file tests the table's flag, so a read-only entry has none, in one
step or in any run. -/
theorem readOnlyEntriesArePermanent : Obligations.ReadOnlyEntriesArePermanent := by
  refine ⟨fun r v s hr hs => ?_, fun r v s hbad hprid hs => ?_, fun i s t hi h => cop0_of_exec_next h hi,
    fun s t h => ⟨c0_readOnly_of_step_next h (.inl rfl), c0_readOnly_of_step_next h (.inr rfl)⟩,
    fun p ops t h => ⟨c0_readOnly_of_runOps_next h (.inl rfl), c0_readOnly_of_runOps_next h (.inr rfl)⟩⟩
  · exact ⟨_, (Effect.cop0SetReadOnly r v s hr).exec_next hs, rfl, rfl, rfl, rfl, rfl, rfl⟩
  · exact ⟨_, (Effect.cop0SetEntry r v s (not_or.2 ⟨hbad, hprid⟩)).exec_next hs, by simp⟩

/-- Settles O47, from the closed form of the passes: `2 ^ p` bytes after `p`, cut at the capacity. -/
theorem doublingFillIsUniform : Obligations.DoublingFillIsUniform := by
  refine ⟨fun cap h => powerOnFill_eq_replicate h, fun p hp => ?_⟩
  have hle : 2 ^ p ≤ 2 ^ 21 := Nat.pow_le_pow_right (by decide) hp
  rw [← List.replicate_one, fillPasses_replicate _ (by decide), List.length_replicate, Nat.mul_one]
  omega

/-- Settles O48: both the fill and the memory after reset hold the sentinel at every offset. -/
theorem resetMemoryIsPowerOnFill : Obligations.ResetMemoryIsPowerOnFill := by
  intro p a ha
  rw [powerOnFill_eq_replicate (by decide), State.resetWith_byte]
  exact List.getElem?_replicate_of_lt ha

/-- Settles O49: a run without a store leaves the memory of reset, with nothing listed. -/
theorem freshMemoryLoadsFill : Obligations.FreshMemoryLoadsFill := by
  intro p ops o t hops ho h ht
  have hmem : t.mem = [] := mem_of_runOps_next h hops
  have hin : InBounds o := ⟨by omega, by simp only [Config.capacity]; omega⟩
  refine ⟨_, (Effect.memLoadIn o t hin).exec_next ht, ?_⟩
  rw [State.respond_responses, hmem, Memory.readWord_nil]

/-- Settles O10, by the law of `step` on a request that decodes. -/
theorem stepRunsDecodedRequest : Obligations.StepRunsDecodedRequest :=
  fun _ _ _ _ _ hr hd => step_of_decode hr hd

/-- Settles O17, part by part: register 0 is set, memory is empty, and nothing was answered or emitted. -/
theorem resetMeetsInvariant : Obligations.ResetMeetsInvariant := fun p =>
  { regZero := by simp
    memWf := Memory.wf_nil
    latch := by simp
    abortLast := by simp
    stream := rfl
    proper := by simp }

end Sys2Proof.Machine
end

section
/-! PROOFS. The statements about memory (spec/20_memory.md): the bounds test, little-endian composition and
decomposition, idempotence, and memory as the latest of the stores before. First the accesses at in-bounds
offsets as effects, what an operation leaves in a byte, and a store done twice, then the statements. -/

namespace Sys2Proof.Machine

variable {s t u : State} {i : Instr} {r : Result}

/-! ## The bounds test in the numbers of the spec -/

/-- The capacity is 2 MiB (20_memory.md R41). -/
theorem inBounds_iff {o : Int} : InBounds o ↔ 0 ≤ o ∧ o + 3 < 0x200000 := Iff.rfl

/-- A byte offset in bounds leaves room for all four bytes of the access (20_memory.md R41). -/
theorem InBounds.toNat_add_lt {o : Int} (h : InBounds o) : o.toNat + 3 < Config.capacity := by
  obtain ⟨hlo, hhi⟩ := h
  omega

theorem inBounds_natCast {o : Nat} (h : o + 3 < 0x200000) : InBounds o :=
  inBounds_iff.2 ⟨by omega, by omega⟩

/-! ## The accesses as effects -/

theorem Effect.loadAt {o : Nat} (s : State) (h : o + 3 < 0x200000) :
    Effect (.memLoadword o) s s (.memValue (s.mem.readWord o)) :=
  .memLoadIn o s (inBounds_natCast h)

theorem Effect.storeAt {o : Nat} (v : Word) (s : State) (h : o + 3 < 0x200000) :
    Effect (.memStoreword o v) s (s.writeMem o v) .memDone :=
  .memStoreIn o v s (inBounds_natCast h)

/-- A load, in bounds or not, leaves the state it found (20_memory.md R50). -/
theorem Effect.eq_of_load {a : Int} (h : Effect (.memLoadword a) s u r) : u = s := by
  cases h with
  | memLoadIn => rfl
  | memLoadOut => rfl

/-- In a running block a load only answers (20_memory.md R50). -/
theorem exec_memLoadword_respond (a : Int) (hs : s.halted = false) :
    ∃ r, exec (.memLoadword a) s = .next (s.respond r) := by
  obtain ⟨u, r, he, -⟩ := exec_effect (.memLoadword a) s
  obtain rfl := he.eq_of_load
  exact ⟨r, he.exec_next hs⟩

/-! ## What is left in a byte -/

/-- A lane of a word in the arithmetic of `leavesByte` (42_mem_ops.md R93 (c)). -/
theorem byteLane_eq_ofNat (v : Word) (k : Nat) : byteLane v k = BitVec.ofNat 8 (v.toNat / 256 ^ k) := by
  apply BitVec.eq_of_toNat_eq
  rw [byteLane_toNat, BitVec.toNat_ofNat, Nat.pow_mul]

/-- An operation leaves in each byte what its operands say it leaves (20_memory.md R40, R51). -/
theorem Effect.byte_eq (h : Effect i s u r) (hm : s.mem.wf) (a : Nat) :
    u.byte a = i.leavesByte a (s.byte a) := by
  cases h with
  | memStoreIn o v _ hb =>
    rw [State.writeMem_byte v hm hb.toNat_add_lt, byteLane_eq_ofNat, Instr.leavesByte]
    obtain ⟨hlo, hhi⟩ := inBounds_iff.1 hb
    exact if_congr (by omega) rfl rfl
  | memStoreOut o v _ hb =>
    exact (if_neg fun ⟨hlo, hhi, _⟩ => hb (inBounds_iff.2 ⟨hlo, hhi⟩)).symm
  | _ => rfl

/-- The lane `k` of a word, read from the block the store leaves (20_memory.md R40). -/
theorem State.writeMem_byte_lane {o k : Nat} (v : Word) (hm : s.mem.wf) (ho : o + 3 < 0x200000) (hk : k < 4) :
    ((s.writeMem o v).byte (o + k)).toNat = v.toNat / 2 ^ (8 * k) % 256 := by
  rw [State.writeMem_byte v hm ho, if_pos (by omega), Nat.add_sub_cancel_left, byteLane_toNat]

/-! ## A store done twice -/

/-- Storing the same word again at the same offset leaves the same memory (20_memory.md R50). -/
theorem Memory.writeWord_writeWord {m : Memory} {o : Nat} (v : Word) (hm : m.wf)
    (ho : o + 3 < Config.capacity) : (m.writeWord o v).writeWord o v = m.writeWord o v := by
  have hm' : (m.writeWord o v).wf := Memory.wf_writeWord v hm ho
  refine Memory.ext_byteAt (Memory.wf_writeWord v hm' ho) hm' fun a => ?_
  rw [Memory.byteAt_writeWord v hm' ho, Memory.byteAt_writeWord v hm ho]
  split <;> rfl

/-! ## Runs -/

theorem runOps_singleton (i : Instr) (s : State) : runOps [i] s = exec i s := by
  simp only [runOps]
  cases exec i s <;> rfl

/-- A run leaves in each byte what its operations leave there, one after the other (20_memory.md R51 (b)). -/
theorem byte_of_runOps_next {ops : List Instr} (hm : s.mem.wf) (h : runOps ops s = .next t) (a : Nat) :
    t.byte a = ops.foldl (fun b i => i.leavesByte a b) (s.byte a) := by
  induction ops generalizing s with
  | nil => cases h; rfl
  | cons i is ih =>
    obtain ⟨_, hexec, hrest⟩ := runOps_cons_next.1 h
    obtain ⟨-, u, r, he, rfl⟩ := exec_next_effect hexec
    rw [ih (s := u.respond r) (he.mem_wf hm) hrest, State.respond_byte, he.byte_eq hm, List.foldl_cons]

/-! ## The statements -/

/-- Settles O37: the bounds test of both accesses is the interval from 0 to 0x1FFFFC. -/
theorem boundsTestIsUnbounded : Obligations.BoundsTestIsUnbounded := by
  intro offset value s hs
  refine ⟨fun ⟨hlo, hhi⟩ => ?_, fun hout => ?_⟩
  · have hin : InBounds offset := inBounds_iff.2 ⟨hlo, by omega⟩
    exact ⟨⟨_, _, (Effect.memLoadIn offset s hin).exec_next hs, rfl⟩,
      ⟨_, (Effect.memStoreIn offset value s hin).exec_next hs, rfl⟩⟩
  · have hnot : ¬ InBounds offset := fun hin => by
      obtain ⟨hlo, hhi⟩ := inBounds_iff.1 hin
      omega
    exact ⟨(Effect.memLoadOut offset s hnot).exec_next hs,
      (Effect.memStoreOut offset value s hnot).exec_next hs⟩

/-- Settles O39: the word a load answers is `MemRead`'s, whose value is the weighted sum. -/
theorem loadComposesLittleEndian : Obligations.LoadComposesLittleEndian := fun o s hs ho =>
  ⟨_, _, (Effect.loadAt s ho).exec_next hs, rfl, Memory.readWord_toNat s.mem o⟩

/-- Settles O41: the block left is `MemWrite`'s, read lane by lane inside the word and as before outside it. -/
theorem storeDecomposesLittleEndian : Obligations.StoreDecomposesLittleEndian := by
  intro o v s hs hm ho
  have hlane {k : Nat} (hk : k < 4) := State.writeMem_byte_lane v hm ho hk
  refine ⟨_, (Effect.storeAt v s ho).exec_next hs, ?_, hlane (k := 1) (by decide), hlane (k := 2) (by decide),
    hlane (k := 3) (by decide), fun a ha => ?_⟩
  · simpa using hlane (k := 0) (by decide)
  · rw [State.respond_byte, State.writeMem_byte v hm ho, if_neg (by omega)]

/-- Settles O42: a load only answers, from memory that only a store changes; and a second store writes the
bytes that are there. -/
theorem loadsAndStoresAreIdempotent : Obligations.LoadsAndStoresAreIdempotent := by
  intro s hs hm
  refine ⟨fun a => ?_, fun o v ho => ⟨?_, ?_, ?_⟩⟩
  · obtain ⟨r, hr⟩ := exec_memLoadword_respond a hs
    exact ⟨_, hr, rfl, rfl, rfl, rfl, rfl, rfl⟩
  · refine ⟨_, _, (Effect.loadAt s ho).exec_next hs, rfl, fun ops u hops hrun hu => ?_⟩
    have hmem : u.mem = s.mem := by simpa using mem_of_runOps_next hrun hops
    exact ⟨_, hmem ▸ (Effect.loadAt u ho).exec_next hu, rfl⟩
  · have hread : ((s.writeMem o v).respond .memDone).mem.readWord o = v :=
      Memory.readWord_writeWord v hm ho
    have hload := Effect.loadAt ((s.writeMem o v).respond .memDone) ho
    rw [hread] at hload
    have hrun := (Effect.storeAt v s ho).runOps_cons (is := [.memLoadword o]) hs
    rw [runOps_singleton, hload.exec_next hs] at hrun
    exact ⟨_, hrun, by simp⟩
  · exact ⟨_, _, (Effect.storeAt v s ho).exec_next hs, (Effect.storeAt v _ ho).exec_next hs,
      Memory.writeWord_writeWord v hm ho, rfl, rfl, rfl⟩

/-- Settles O44, by induction on the operations: each leaves the byte `leavesByte` says. -/
theorem memoryHoldsLatestStore : Obligations.MemoryHoldsLatestStore :=
  fun _ _ _ a hm h => byte_of_runOps_next hm h a

/-- Settles O45: an access out of bounds only answers, so the next operation runs from there. -/
theorem boundsFailureIsClean : Obligations.BoundsFailureIsClean := by
  intro offset value i j s hout hi hs
  have hnot : ¬ InBounds offset := fun hin => hout (inBounds_iff.1 hin)
  have he : Effect i s s .outOfBounds := by
    obtain rfl | rfl := hi
    · exact .memLoadOut offset s hnot
    · exact .memStoreOut offset value s hnot
  rw [he.runOps_cons hs, runOps_singleton]
  rfl

end Sys2Proof.Machine
end

section
/-! PROOFS. The statements about the encodings (spec/30_encoding.md): request words and the opcode table, the
assembly text, response words, and a request word presented to the block. First request words field by field
and what they spell, then the text character by character, then the codes of a response, then the statements. -/

namespace Sys2Proof

variable {r : Request} {i : Instr} {w : ReqWord}

/-! ## Request words, field by field -/

/-- A request word is determined by its three fields. -/
theorem Request.unpack_injective : Function.Injective Request.unpack :=
  Function.LeftInverse.injective Request.pack_unpack

/-- Masking a request word masks its fields. -/
theorem Request.unpack_and (w m : ReqWord) :
    Request.unpack (w &&& m) =
      { op := (Request.unpack w).op &&& (Request.unpack m).op
        addr := (Request.unpack w).addr &&& (Request.unpack m).addr
        wdata := (Request.unpack w).wdata &&& (Request.unpack m).wdata } := by
  simp only [Request.unpack, BitVec.extractLsb'_and]

/-- The mask of a reading request keeps `op` and `addr` and clears `wdata` (30_encoding.md R59). -/
theorem Request.unpack_and_readMask (w : ReqWord) :
    Request.unpack (w &&& 0xFFFFFFFFFF00000000#72) = { Request.unpack w with wdata := 0#32 } := by
  have hm : Request.unpack 0xFFFFFFFFFF00000000#72 = ⟨BitVec.allOnes 8, BitVec.allOnes 32, 0#32⟩ := by decide
  simp only [Request.unpack_and, hm, BitVec.and_allOnes, BitVec.and_zero]

/-- The mask of a row of the opcode table keeps `op` only (30_encoding.md R64). -/
theorem Request.unpack_and_opMask (w : ReqWord) :
    Request.unpack (w &&& 0xFF0000000000000000#72) = ⟨(Request.unpack w).op, 0#32, 0#32⟩ := by
  have hm : Request.unpack 0xFF0000000000000000#72 = ⟨BitVec.allOnes 8, 0#32, 0#32⟩ := by decide
  simp only [Request.unpack_and, hm, BitVec.and_allOnes, BitVec.and_zero]

/-! ## What a request spells -/

/-- A request is refused exactly when its `op` is reserved, and with that `op` (30_encoding.md R63). -/
theorem Request.operation_eq_error {e : DecodeError} :
    r.operation = .error e ↔ 6 ≤ r.op.toNat ∧ e = .reservedOp r.op := by
  unfold Request.operation
  split
  case h_7 =>
    have hop : 6 ≤ r.op.toNat := by
      simp only [imp_false] at *
      omega
    simp [hop, eq_comm]
  all_goals simp_all

/-- The canonical request of the operation a request spells is that request, but for the `wdata` of a reading
one (30_encoding.md R59). -/
theorem request_of_operation (h : r.operation = .ok i) :
    i.request = if r.op ∈ [0x00#8, 0x02#8, 0x04#8] then { r with wdata := 0#32 } else r := by
  obtain ⟨op, addr, wdata⟩ := r
  have haddr : BitVec.ofInt 32 (addr.toNat : Int) = addr := by simp
  have hop {k : Nat} (hk : op.toNat = k) : op = BitVec.ofNat 8 k := by simp [← hk]
  unfold Request.operation at h
  split at h <;> cases h
  all_goals
    rw [hop ‹_›]
    simp [Instr.request, Instr.opCode, Instr.addr, Instr.wdata, haddr]

/-- The op code of the operation a request spells is the request's. -/
theorem opCode_of_operation (h : r.operation = .ok i) : i.opCode = r.op := by
  have hreq := congrArg Request.op (request_of_operation h)
  rwa [apply_ite Request.op, ite_self] at hreq

/-! ## The opcode table -/

/-- A row's `op` field is its number in the table. -/
theorem getElem?_opTable_op : ∀ row ∈ opTable, opTable[(Request.unpack row.pattern).op.toNat]? = some row := by
  decide

/-- The `op` fields of the rows are the six op codes (30_encoding.md R57). -/
theorem exists_row_op {op : BitVec 8} :
    (∃ row ∈ opTable, (Request.unpack row.pattern).op = op) ↔ op.toNat < 6 := by
  have hops : opTable.map (fun row => (Request.unpack row.pattern).op) = (List.range 6).map (BitVec.ofNat 8) := by
    decide
  rw [← List.mem_map (f := fun row : OpRow => (Request.unpack row.pattern).op), hops]
  simp only [List.mem_map, List.mem_range]
  constructor
  · rintro ⟨k, hk, rfl⟩
    rw [BitVec.toNat_ofNat]
    omega
  · exact fun h => ⟨op.toNat, h, by simp⟩

/-- A row matches exactly the words that carry its `op` (30_encoding.md R64). -/
theorem OpRow.matches_iff {row : OpRow} (h : row ∈ opTable) :
    row.Matches w ↔ (Request.unpack row.pattern).op = (Request.unpack w).op := by
  have hrow : ∀ row ∈ opTable, row.mask = 0xFF0000000000000000#72 ∧
      Request.unpack row.pattern = ⟨(Request.unpack row.pattern).op, 0#32, 0#32⟩ := by decide
  obtain ⟨hmask, hpat⟩ := hrow row h
  rw [OpRow.Matches, hmask, ← Request.unpack_injective.eq_iff, Request.unpack_and_opMask, hpat]
  simp [eq_comm]

/-- The row at the op code of an operation has its mnemonic: `Laws.OpField` over all operations. -/
theorem opField_statement (i : Instr) : Laws.OpField.Statement i := by
  cases i with
  | gprGet a => exact Laws.OpField.gprGet a
  | gprSet a v => exact Laws.OpField.gprSet a v
  | cop0Get a => exact Laws.OpField.cop0Get a
  | cop0Set a v => exact Laws.OpField.cop0Set a v
  | memLoadword a => exact Laws.OpField.memLoadword a
  | memStoreword a v => exact Laws.OpField.memStoreword a v

/-! ## Decimal numerals -/

/-- The decimal digits have their values. -/
theorem digitValue?_digitChar : ∀ d < 10, digitValue? 10 (digitChar d) = some d := by decide

/-- No decimal digit is a blank, a comma or the `x` of a hexadecimal numeral. -/
theorem digitChar_notMem : ∀ d < 10, digitChar d ∉ [' ', ',', 'x'] := by decide

/-- The value of two rows of digits, one after the other. -/
theorem digitsValue?_append (base acc : Nat) (xs ys : List Char) :
    digitsValue? base acc (xs ++ ys) = (digitsValue? base acc xs).bind (digitsValue? base · ys) := by
  induction xs generalizing acc with
  | nil => rfl
  | cons c cs ih =>
    simp only [List.cons_append, digitsValue?]
    cases digitValue? base c with
    | none => rfl
    | some d => exact ih _

/-- Every character of a decimal numeral is a decimal digit. -/
theorem digit_of_mem_decimalDigits {c : Char} (fuel : Nat) {n : Nat} (h : c ∈ decimalDigits fuel n) :
    ∃ d < 10, c = digitChar d := by
  induction fuel generalizing n with
  | zero => simp [decimalDigits] at h
  | succ fuel ih =>
    rw [decimalDigits] at h
    split at h
    · next hn => exact ⟨n, hn, List.mem_singleton.1 h⟩
    · obtain h | h := List.mem_append.1 h
      · exact ih h
      · exact ⟨n % 10, by omega, List.mem_singleton.1 h⟩

/-- The decimal digits of a number that the fuel covers have its value. -/
theorem digitsValue?_decimalDigits (fuel : Nat) {n : Nat} (h : n < 10 ^ fuel) :
    digitsValue? 10 0 (decimalDigits fuel n) = some n := by
  induction fuel generalizing n with
  | zero =>
    obtain rfl : n = 0 := by omega
    rfl
  | succ fuel ih =>
    rw [decimalDigits]
    split
    · next hn => simp [digitsValue?, digitValue?_digitChar n hn]
    · have hq : n / 10 < 10 ^ fuel := by omega
      have hd := digitValue?_digitChar (n % 10) (by omega)
      have hn : n / 10 * 10 + n % 10 = n := by omega
      simp [digitsValue?_append, ih hq, digitsValue?, hd, hn]

/-- A decimal numeral holds no blank, no comma and no `x`. -/
theorem notMem_decimal {c : Char} (hc : c ∈ [' ', ',', 'x']) (n : Nat) : c ∉ decimal n := by
  intro h
  obtain ⟨d, hd, rfl⟩ := digit_of_mem_decimalDigits 10 h
  exact digitChar_notMem d hd hc

theorem decimal_ne_nil (n : Nat) : decimal n ≠ [] := by
  rw [decimal, decimalDigits]
  split <;> simp

/-- A numeral without an `x` is decimal. -/
theorem numeral?_of_notMem {cs : List Char} (hne : cs ≠ []) (hx : 'x' ∉ cs) :
    numeral? cs = digitsValue? 10 0 cs := by
  unfold numeral?
  split
  · exact absurd rfl hne
  · simp at hx
  · simp at hx
  · rfl

/-- The decimal numeral of a 32-bit number reads back as it (30_encoding.md R65). -/
theorem number?_decimal {n : Nat} (h : n < Config.addrLimit) : number? (decimal n) = some n := by
  have hfuel : n < 10 ^ 10 := by
    simp only [Config.addrLimit] at h
    omega
  have hval : numeral? (decimal n) = some n :=
    (numeral?_of_notMem (decimal_ne_nil n) (notMem_decimal (by decide) n)).trans
      (digitsValue?_decimalDigits 10 hfuel)
  simp [number?, hval, h]

/-! ## Blanks and commas -/

/-- A text without a blank has none around it. -/
theorem trimBlanks_of_notMem {cs : List Char} (h : ' ' ∉ cs) : trimBlanks cs = cs := by
  have hdrop {ds : List Char} (hd : ' ' ∉ ds) : ds.dropWhile (· == ' ') = ds := by
    rw [List.dropWhile_eq_self_iff]
    intro hl he
    exact hd (beq_iff_eq.1 he ▸ List.getElem_mem hl)
  rw [trimBlanks, hdrop h, hdrop (by simpa using h), List.reverse_reverse]

/-- A blank in front is trimmed. -/
theorem trimBlanks_cons (cs : List Char) : trimBlanks (' ' :: cs) = trimBlanks cs := by
  simp [trimBlanks]

/-- A text has at least one piece. -/
theorem commaPieces_ne_nil (cs : List Char) : commaPieces cs ≠ [] := by
  cases cs with
  | nil => simp [commaPieces]
  | cons c cs =>
    rw [commaPieces]
    split
    · simp
    · split <;> simp

/-- A text without a comma is one piece. -/
theorem commaPieces_of_notMem {cs : List Char} (h : ',' ∉ cs) : commaPieces cs = [cs] := by
  induction cs with
  | nil => rfl
  | cons c cs ih =>
    have hc := List.ne_of_not_mem_cons h
    have hcs := List.not_mem_of_not_mem_cons h
    simp [commaPieces, ih hcs, Ne.symm hc]

/-- The text before the first comma is the first piece. -/
theorem commaPieces_append {cs : List Char} (h : ',' ∉ cs) (ds : List Char) :
    commaPieces (cs ++ ',' :: ds) = cs :: commaPieces ds := by
  induction cs with
  | nil =>
    obtain ⟨p, ps, hp⟩ := List.exists_cons_of_ne_nil (commaPieces_ne_nil ds)
    simp [commaPieces, hp]
  | cons c cs ih =>
    have hc := List.ne_of_not_mem_cons h
    have hcs := List.not_mem_of_not_mem_cons h
    simp [commaPieces, ih hcs, Ne.symm hc]

/-! ## The line -/

/-- A decimal numeral after a blank is a piece that reads back as its number. -/
theorem number?_trimBlanks_decimal {n : Nat} (h : n < Config.addrLimit) :
    number? (trimBlanks (' ' :: decimal n)) = some n := by
  rw [trimBlanks_cons, trimBlanks_of_notMem (notMem_decimal (by decide) n), number?_decimal h]

theorem comma_notMem_blank_decimal (n : Nat) : ',' ∉ ' ' :: decimal n :=
  List.not_mem_cons_of_ne_of_not_mem (by decide) (notMem_decimal (by decide) n)

/-- One operand, as `assemble` reads what follows the mnemonic. -/
theorem operands_one {a : Nat} (ha : a < Config.addrLimit) :
    (commaPieces (' ' :: decimal a)).map (fun p => number? (trimBlanks p)) = [some a] := by
  rw [commaPieces_of_notMem (comma_notMem_blank_decimal a), List.map_singleton, number?_trimBlanks_decimal ha]

/-- Two operands, as `assemble` reads what follows the mnemonic. -/
theorem operands_two {a v : Nat} (ha : a < Config.addrLimit) (hv : v < Config.addrLimit) :
    (commaPieces (' ' :: (decimal a ++ ',' :: ' ' :: decimal v))).map (fun p => number? (trimBlanks p)) =
      [some a, some v] := by
  rw [← List.cons_append, commaPieces_append (comma_notMem_blank_decimal a), List.map_cons,
    number?_trimBlanks_decimal ha, operands_one hv]

/-- No mnemonic holds a blank. -/
theorem asmName_ne_blank (i : Instr) : ∀ c ∈ i.asmName, (c != ' ') = true := by
  cases i <;> simp [Instr.asmName, Instr.opCode, asmNames]

/-- The mnemonic of an operation stands in the table at its op code. -/
theorem findIdx?_asmName (i : Instr) : asmNames.findIdx? (· == i.asmName) = some i.opCode.toNat := by
  cases i <;> rfl

/-- A line is split at the blank after its mnemonic. -/
theorem takeWhile_asmName (i : Instr) (rest : List Char) :
    (i.asmName ++ ' ' :: rest).takeWhile (· != ' ') = i.asmName := by
  rw [List.takeWhile_append_of_pos (asmName_ne_blank i), List.takeWhile_cons_of_neg (by decide), List.append_nil]

theorem dropWhile_asmName (i : Instr) (rest : List Char) :
    (i.asmName ++ ' ' :: rest).dropWhile (· != ' ') = ' ' :: rest := by
  rw [List.dropWhile_append_of_pos (asmName_ne_blank i), List.dropWhile_cons_of_neg (by decide)]

end Sys2Proof

namespace Sys2Proof.Machine

variable {s : State}

/-! ## Response words -/

/-- A status reads back from its code (30_encoding.md R61). -/
theorem Status.ofCode?_code (st : Status) : Status.ofCode? st.code = some st := by
  cases st <;> rfl

/-- A name tag reads back from its code (30_encoding.md R60). -/
theorem NameTag.ofCode?_code (n : NameTag) : NameTag.ofCode? n.code = some n := by
  rcases n with _ | r | _
  · rfl
  · cases r <;> rfl
  · rfl

/-- The codes of a status are those below 4. -/
theorem Status.ofCode?_isSome {b : Byte} : (Status.ofCode? b).isSome ↔ b.toNat < 4 := by
  unfold Status.ofCode?
  split
  case h_5 =>
    simp only [imp_false] at *
    simp only [Option.isSome_none, Bool.false_eq_true, false_iff]
    omega
  all_goals simp_all

/-- The codes of a name tag are 0, the recognised indices and 0xFF. -/
theorem NameTag.ofCode?_isSome {b : Byte} :
    (NameTag.ofCode? b).isSome ↔ b.toNat ∈ [0x00, 3, 5, 6, 7, 8, 9, 11, 12, 13, 14, 15, 0xFF] := by
  have hlookup (n : Nat) : (cop0Lookup n).isSome ↔ n ∈ [3, 5, 6, 7, 8, 9, 11, 12, 13, 14, 15] := by
    rw [Option.isSome_iff_ne_none, Ne, cop0Lookup_eq_none, not_not]
    simp only [recognisedIndices, List.mem_cons, List.not_mem_nil, or_false]
    omega
  unfold NameTag.ofCode?
  split
  · next h => simp [h]
  · next h => simp [h]
  · next h0 h255 =>
    rw [Option.isSome_map, hlookup]
    simp_all

/-- The three fields of a packed response (30_encoding.md R60). -/
theorem Response.pack_fields (r : Response) :
    r.pack.extractLsb' 40 8 = r.status.code ∧ r.pack.extractLsb' 32 8 = r.name.code ∧
      r.pack.extractLsb' 0 32 = r.rdata := by
  refine ⟨BitVec.extractLsb'_append_eq_left, ?_, ?_⟩
  · rw [Response.pack, BitVec.extractLsb'_append_eq_of_add_le (by decide), BitVec.extractLsb'_append_eq_left]
  · rw [Response.pack, BitVec.extractLsb'_append_eq_of_add_le (by decide), BitVec.extractLsb'_append_eq_right]

/-- A response word reads back exactly when its two codes do. -/
theorem Response.unpack_isSome {w : RspWord} :
    (Response.unpack w).isSome ↔
      (Status.ofCode? (w.extractLsb' 40 8)).isSome ∧ (NameTag.ofCode? (w.extractLsb' 32 8)).isSome := by
  unfold Response.unpack
  cases Status.ofCode? (w.extractLsb' 40 8) <;> cases NameTag.ofCode? (w.extractLsb' 32 8) <;> simp

/-! ## Presenting a request -/

/-- A table word that decodes is a request word that does. -/
theorem exists_of_decodeTableWord {nbits w : Nat} {i : Instr} (h : decodeTableWord nbits w = some i) :
    ∃ word, tableWord? nbits w = some word ∧ decode word = .ok i := by
  unfold decodeTableWord at h
  split at h
  · cases h
  · next word hw =>
    split at h
    · next hd => cases h; exact ⟨word, hw, hd⟩
    · cases h

/-- A step on a request that does not decode is refused with the decoder's op (30_encoding.md R63). -/
theorem step_of_decode_error {w : ReqWord} {ws : List ReqWord} {op : BitVec 8} (hs : s.halted = false)
    (hr : s.requests = w :: ws) (hd : decode w = .error (.reservedOp op)) : step s = .refused (.reservedOp op) := by
  simp [step, fetch, hs, hr, hd]

/-! ## The statements -/

/-- Settles O1: each field of the canonical word reads back (`decode_encode`). -/
theorem decodeOfEncodeGivesBack : Obligations.DecodeOfEncodeGivesBack :=
  fun _ h => decode_encode h

/-- Settles O2: the canonical request is the word's own, or the one that the mask of a reading request leaves. -/
theorem encodeOfDecodeIsCanonical : Obligations.EncodeOfDecodeIsCanonical := by
  intro w i h
  refine ⟨wellFormed_of_operation h, Request.unpack_injective ?_⟩
  rw [encode, Request.unpack_pack, request_of_operation h, apply_ite Request.unpack, Request.unpack_and_readMask]
  rfl

/-- Settles O3: the two words are packed requests, and the arms of the three reading op codes do not read
`wdata`. -/
theorem readingRequestsIgnoreWdata : Obligations.ReadingRequestsIgnoreWdata := by
  intro op addr d d' h
  change decode (Request.pack ⟨op, addr, d⟩) = decode (Request.pack ⟨op, addr, d'⟩)
  rw [decode_pack, decode_pack]
  simp only [List.mem_cons, List.not_mem_nil, or_false] at h
  obtain rfl | rfl | rfl := h <;> rfl

/-- Settles O4: a word is an error exactly for a reserved `op`. -/
theorem exactlyReservedOpsRefused : Obligations.ExactlyReservedOpsRefused := by
  intro w
  refine ⟨fun h => Request.operation_eq_error.2 ⟨h, rfl⟩, fun h => ?_⟩
  cases hd : decode w with
  | ok i => exact ⟨i, rfl⟩
  | error e => exact absurd (Request.operation_eq_error.1 hd).1 (Nat.not_le.2 h)

/-- Settles O5: a row matches the words of its `op`, and stands in the table at that number. -/
theorem oneTableRowPerWord : Obligations.OneTableRowPerWord := by
  intro w
  refine ⟨?_, fun row hrow row' hrow' hm hm' => ?_, fun row hrow i hm hd => ?_⟩
  · rw [← exists_row_op]
    exact exists_congr fun row => and_congr_right fun hrow => (OpRow.matches_iff hrow).symm
  · have hop := ((OpRow.matches_iff hrow).1 hm).trans ((OpRow.matches_iff hrow').1 hm').symm
    have hget := getElem?_opTable_op row hrow
    rw [hop, getElem?_opTable_op row' hrow'] at hget
    exact (Option.some.inj hget).symm
  · have hop : (Request.unpack row.pattern).op = i.opCode :=
      ((OpRow.matches_iff hrow).1 hm).trans (opCode_of_operation hd).symm
    obtain ⟨-, hname⟩ := opField_statement i
    rw [← hop, getElem?_opTable_op row hrow] at hname
    exact Option.some.inj hname

/-- Settles O7: the mnemonic ends at the first blank and picks its row, and each decimal numeral between the
commas reads back as its number. -/
theorem assembleOfRenderGivesBack : Obligations.AssembleOfRenderGivesBack := by
  intro i hi
  obtain ⟨h0, h1⟩ := hi
  have hback : (i.addr.toNat : Int) = i.addr := Int.toNat_of_nonneg h0
  have ha : i.addr.toNat < Config.addrLimit := by omega
  cases i with
  | gprGet | cop0Get | memLoadword =>
    rw [Instr.render, assemble, takeWhile_asmName, dropWhile_asmName, findIdx?_asmName, operands_one ha]
    simpa [Instr.opCode, Instr.addr] using hback
  | gprSet _ v | cop0Set _ v | memStoreword _ v =>
    simp only [Instr.render, List.append_assoc, List.cons_append]
    rw [assemble, takeWhile_asmName, dropWhile_asmName, findIdx?_asmName, operands_two ha v.isLt]
    simpa [Instr.opCode, Instr.addr] using hback

/-- Settles O8: the two codes read back, and which codes do is said apart for each. -/
theorem responseWordsReadBack : Obligations.ResponseWordsReadBack := by
  refine ⟨fun r => ?_, fun w => ?_⟩
  · obtain ⟨hstatus, hname, hrdata⟩ := r.pack_fields
    rw [Response.unpack, hstatus, hname, hrdata, Status.ofCode?_code, NameTag.ofCode?_code]
  · rw [← Option.isSome_iff_exists, Response.unpack_isSome, Status.ofCode?_isSome, NameTag.ofCode?_isSome]

/-- Settles O6: a worked word is the packed request of its three fields, and decodes as they say. -/
theorem workedEncodingsDecode : Obligations.WorkedEncodingsDecode :=
  ⟨decode_pack ⟨0x00#8, 4#32, 0#32⟩, decode_pack ⟨0x01#8, 4#32, 100#32⟩, decode_pack ⟨0x02#8, 12#32, 0#32⟩,
    decode_pack ⟨0x03#8, 14#32, 0x80001000#32⟩, decode_pack ⟨0x04#8, 0x10#32, 0#32⟩,
    decode_pack ⟨0x05#8, 0x10#32, 0xDEADBEEF#32⟩, decode_pack ⟨0x06#8, 0#32, 0#32⟩,
    decode_pack ⟨0xFF#8, 0xFFFFFFFF#32, 0xFFFFFFFF#32⟩, decode_pack ⟨0x80#8, 4#32, 0#32⟩⟩

/-- Settles O9: each row is the status, name and value of its result, side by side. -/
theorem resultsPackAsTabled : Obligations.ResultsPackAsTabled :=
  fun _ _ => ⟨rfl, rfl, rfl, rfl, rfl, rfl, rfl, rfl, rfl, rfl, rfl⟩

/-- Settles O11: the presented word is the oldest request, and without it the state is the one before. A halted
block stops either way (`step_of_decode`), and bits above the 72 are dropped in both places (`tableWord?`). -/
theorem presentedWordRunsNext : Obligations.PresentedWordRunsNext := by
  intro s w i _ _ h
  obtain ⟨word, hw, hd⟩ := exists_of_decodeTableWord h
  rw [State.withFetchWord, hw]
  exact step_of_decode (s := present word s) rfl hd

/-- Settles O12: the decoder refuses the word, and the step with it. -/
theorem reservedRequestRefused : Obligations.ReservedRequestRefused :=
  fun _ _ _ hs hr hop => step_of_decode_error hs hr (Request.operation_eq_error.2 ⟨hop, rfl⟩)

end Sys2Proof.Machine
end

section
/-! PROOFS. The statements about the general-register operations (spec/40_gpr_ops.md): what an operation leaves
in a register, then what each of the two answers, and the register file as the latest of the writes before. -/

namespace Sys2Proof.Machine

variable {s t u : State} {i : Instr} {r : Result}

/-! ## What is left in a register -/

/-- An operation leaves in each register but 0 what its operands say it leaves (40_gpr_ops.md R71). -/
theorem Effect.x_eq (h : Effect i s u r) {q : Fin 32} (hq : q ≠ 0) : u.x q = i.leavesGpr q (s.x q) := by
  cases h with
  | gprSetOut a v _ hout =>
    have hne : a ≠ (q.val : Int) := by omega
    exact (if_neg hne).symm
  | gprSetSlot p v =>
    have hslot : q = p ↔ (p.val : Int) = q.val := by omega
    rw [State.writeGpr_x, if_neg hq]
    exact if_congr hslot rfl rfl
  | _ => rfl

/-- A run leaves in each register but 0 what its operations leave there, one after the other. -/
theorem x_of_runOps_next {ops : List Instr} {q : Fin 32} (hq : q ≠ 0) (h : runOps ops s = .next t) :
    t.x q = ops.foldl (fun v i => i.leavesGpr q v) (s.x q) := by
  induction ops generalizing s with
  | nil => cases h; rfl
  | cons i is ih =>
    obtain ⟨_, hexec, hrest⟩ := runOps_cons_next.1 h
    obtain ⟨-, u, r, he, rfl⟩ := exec_next_effect hexec
    rw [ih hrest, State.respond_x, he.x_eq hq, List.foldl_cons]

/-! ## The statements -/

/-- Settles O25: the register left is `leavesGpr`'s in both classes of index; the write path zeroes slot 0, and
an index out of range only emits. -/
theorem gprSetStoresRegister : Obligations.GprSetStoresRegister := by
  refine ⟨fun addr wdata => decode_pack ⟨0x01#8, addr, wdata⟩, fun index value s hs => ?_⟩
  obtain ⟨u, r, he, -⟩ := exec_effect (.gprSet index value) s
  refine ⟨u.respond r, he.exec_next hs, fun q hq => he.x_eq hq, ?_⟩
  cases he with
  | gprSetOut _ _ _ hout =>
    exact ⟨fun hin => absurd hin hout, fun _ => ⟨rfl, rfl, rfl⟩, rfl, rfl, hs, rfl⟩
  | gprSetSlot p =>
    have hin : 0 ≤ (p.val : Int) ∧ (p.val : Int) ≤ 31 := by omega
    exact ⟨fun _ => ⟨by simp, rfl, rfl⟩, fun hout => absurd hin hout, rfl, rfl, hs, rfl⟩

/-- Settles O28, by induction on the operations: each leaves the register `leavesGpr` says. -/
theorem gprHoldsLatestWrite : Obligations.GprHoldsLatestWrite :=
  fun _ _ _ _ hq h => x_of_runOps_next hq h

/-- Settles O24, by the effect of each class of index; index 0 is the slot whose read path gives 0. -/
theorem gprGetAnswersRegister : Obligations.GprGetAnswersRegister := by
  refine ⟨fun addr wdata => decode_pack ⟨0x00#8, addr, wdata⟩, fun index s hs => ⟨fun hout => ?_, ?_, ?_⟩⟩
  · exact (Effect.gprGetOut index s hout).exec_next hs
  · rintro rfl
    exact (Effect.gprGetSlot 0 s).exec_next hs
  · rintro q hq rfl
    rw [(Effect.gprGetSlot q s).exec_next hs, readGpr_of_ne hq]
    rfl

end Sys2Proof.Machine
end

section
/-! PROOFS. The statements about the coprocessor-0 operations (spec/41_cop0_ops.md): the table index by index and
what an operation leaves in an entry, then what each of the two answers, the read-only entries, the file as the
latest of the writes before, and the end of a run at an unrecognised index. -/

namespace Sys2Proof.Machine

variable {s t u : State} {i : Instr} {r : Result}

/-! ## The table -/

/-- The table has an entry at the recognised indices and no other (41_cop0_ops.md R82). -/
theorem exists_cop0Lookup_iff {index : Int} : (∃ e, cop0Lookup index = some e) ↔ index ∈ recognisedIndices := by
  rw [← Option.ne_none_iff_exists', ne_eq, cop0Lookup_eq_none, not_not]

/-- What the table has at an index is the row of the entry of that index (41_cop0_ops.md R82). -/
theorem cop0Lookup_eq_some {index : Int} {e : Cop0Entry} :
    cop0Lookup index = some e ↔ ∃ q : Cop0Reg, index = (q.index : Int) ∧ e = ⟨q.index, q, decide q.ReadOnly⟩ := by
  constructor
  · intro h
    obtain ⟨-, hnone⟩ | ⟨q, hq, hsome⟩ := cop0Lookup_cases index
    · simp [hnone] at h
    · exact ⟨q, hq, Option.some.inj (h.symm.trans hsome)⟩
  · rintro ⟨q, rfl, rfl⟩
    exact cop0Lookup_index q

/-- The read-only indices are 8 and 15 (10_state.md R16). -/
theorem mem_readOnly_indices_iff {index : Int} :
    index ∈ ([8, 15] : List Int) ↔ ∃ q : Cop0Reg, index = (q.index : Int) ∧ q.ReadOnly := by
  constructor
  · intro h
    simp only [List.mem_cons, List.not_mem_nil, or_false] at h
    obtain rfl | rfl := h
    · exact ⟨.badVaddr, rfl, .inl rfl⟩
    · exact ⟨.prid, rfl, .inr rfl⟩
  · rintro ⟨q, rfl, rfl | rfl⟩ <;> decide

/-! ## What is left in an entry -/

/-- A write at the index of an entry is a write to that entry, dropped if it is read-only (41_cop0_ops.md R81). -/
theorem leavesCop0_cop0Set_index (p q : Cop0Reg) (v before : Word) :
    (Instr.cop0Set p.index v).leavesCop0 q before = if q = p ∧ ¬ p.ReadOnly then v else before := by
  refine if_congr ?_ rfl rfl
  rw [← not_or]
  constructor
  · rintro ⟨hidx, hq⟩
    obtain rfl := cop0_index_injective hidx
    exact ⟨rfl, hq⟩
  · rintro ⟨rfl, hp⟩
    exact ⟨rfl, hp⟩

/-- An operation leaves in each entry what its operands say it leaves (41_cop0_ops.md R81). -/
theorem Effect.c0_eq (h : Effect i s u r) (q : Cop0Reg) : u.c0 q = i.leavesCop0 q (s.c0 q) := by
  cases h with
  | cop0SetOut a v _ hout =>
    have hne : a ≠ (q.index : Int) := fun ha => hout (ha ▸ cop0_index_recognised q)
    exact (if_neg fun ⟨ha, _⟩ => hne ha).symm
  | cop0SetReadOnly p v _ hp => simp [leavesCop0_cop0Set_index, hp]
  | cop0SetEntry p v _ hp => simp [leavesCop0_cop0Set_index, hp]
  | _ => rfl

/-- What a run leaves in a view of the state, where each operation leaves there what `leaves` says. -/
theorem runOps_foldl {α : Type} {view : State → α} {leaves : Instr → α → α} {ops : List Instr}
    (hexec : ∀ (i : Instr) (s t : State), exec i s = .next t → view t = leaves i (view s))
    (h : runOps ops s = .next t) : view t = ops.foldl (fun a i => leaves i a) (view s) := by
  induction ops generalizing s with
  | nil => cases h; rfl
  | cons i is ih =>
    obtain ⟨u, hu, hrest⟩ := runOps_cons_next.1 h
    rw [ih hrest, hexec i s u hu, List.foldl_cons]

/-! ## The halted block -/

/-- A halted block takes no step (60_exceptions.md R108). -/
theorem step_halted (h : s.halted = true) : step s = .fault .halted := by
  simp [step, fetch, h]

/-! ## The statements -/

/-- Settles O29: an index has the row of its entry or none, and the effect of each operation goes by that row. -/
theorem cop0TableIsAsListed : Obligations.Cop0TableIsAsListed := by
  intro index
  refine ⟨exists_cop0Lookup_iff, ?_, fun e he => ?_, fun value s hs => ⟨fun e he => ?_, fun hnone => ?_⟩⟩
  · simp only [mem_readOnly_indices_iff, cop0Lookup_eq_some]
    constructor
    · rintro ⟨_, ⟨q, hq, rfl⟩, hro⟩
      exact ⟨q, hq, of_decide_eq_true hro⟩
    · rintro ⟨q, hq, hro⟩
      exact ⟨_, ⟨q, hq, rfl⟩, decide_eq_true hro⟩
  · obtain ⟨q, rfl, rfl⟩ := cop0Lookup_eq_some.1 he
    rfl
  · obtain ⟨p, rfl, rfl⟩ := cop0Lookup_eq_some.1 he
    refine ⟨⟨_, (Effect.cop0GetEntry p s).exec_next hs, rfl⟩, ?_⟩
    by_cases hp : p.ReadOnly
    · exact ⟨_, (Effect.cop0SetReadOnly p value s hp).exec_next hs, by simp [hp], by simp [hp]⟩
    · exact ⟨_, (Effect.cop0SetEntry p value s hp).exec_next hs, by simp [hp], by simp [hp]⟩
  · have hout : index ∉ recognisedIndices := cop0Lookup_eq_none.1 hnone
    exact ⟨⟨_, (Effect.cop0GetOut index s hout).exec_next hs, rfl⟩,
      ⟨_, (Effect.cop0SetOut index value s hout).exec_next hs, rfl⟩⟩

/-- Settles O31, by the effect of each class of index: writable, read-only, unrecognised. -/
theorem cop0SetStoresEntry : Obligations.Cop0SetStoresEntry := by
  refine ⟨fun addr wdata => decode_pack ⟨0x03#8, addr, wdata⟩, fun index value s hs => ⟨?_, ?_, fun hout => ?_⟩⟩
  · rintro q hbad hprid rfl
    have hq : ¬ q.ReadOnly := not_or.2 ⟨hbad, hprid⟩
    exact ⟨_, (Effect.cop0SetEntry q value s hq).exec_next hs, fun p => s.writeCop0_c0 q p value, rfl, rfl, hs,
      rfl, rfl, rfl⟩
  · rintro (rfl | rfl)
    · exact (Effect.cop0SetReadOnly .badVaddr value s (.inl rfl)).exec_next hs
    · exact (Effect.cop0SetReadOnly .prid value s (.inr rfl)).exec_next hs
  · exact (Effect.cop0SetOut index value s hout).exec_next hs

/-- Settles O33, by running the two operations: the write only answers, so the entry read is as it was. -/
theorem readOnlyEntryRejectsWrite : Obligations.ReadOnlyEntryRejectsWrite := by
  intro q v s hq hs
  rw [(Effect.cop0SetReadOnly q v s hq).runOps_cons hs,
    (Effect.cop0GetEntry q (s.respond .cop0RoDone)).runOps_cons hs]
  exact ⟨_, rfl, by simp⟩

/-- Settles O34, by induction on the operations: each leaves the entry `leavesCop0` says. -/
theorem cop0HoldsLatestWrite : Obligations.Cop0HoldsLatestWrite := by
  intro ops s t q h
  refine runOps_foldl (view := (·.c0 q)) (leaves := (·.leavesCop0 q ·)) (fun i s t hexec => ?_) h
  obtain ⟨-, u, r, he, rfl⟩ := exec_next_effect hexec
  exact he.c0_eq q

/-- Settles O36: the effect of either operation aborts, which sets the latch, and a halted block has no step. -/
theorem unrecognisedIndexEndsRun : Obligations.UnrecognisedIndexEndsRun := by
  intro index v s hs hout i hi
  obtain ⟨u, he⟩ : ∃ u, Effect i s u .fatalAbort := by
    obtain rfl | rfl := hi
    · exact ⟨_, .cop0GetOut index s hout⟩
    · exact ⟨_, .cop0SetOut index v s hout⟩
  have hhalt : (u.respond .fatalAbort).halted = true := (he.halted_iff hs).2 rfl
  refine ⟨_, he.exec_next hs, hhalt, step_halted hhalt, fun j => ?_⟩
  rw [he.runOps_cons hs, runOps_singleton, exec_halted j hhalt]

/-- Settles O30, by the effect of each class of index: recognised, unrecognised. -/
theorem cop0GetAnswersEntry : Obligations.Cop0GetAnswersEntry := by
  refine ⟨fun addr wdata => decode_pack ⟨0x02#8, addr, wdata⟩, fun index s hs => ⟨?_, fun hout => ?_⟩⟩
  · rintro q rfl
    exact (Effect.cop0GetEntry q s).exec_next hs
  · exact (Effect.cop0GetOut index s hout).exec_next hs

end Sys2Proof.Machine
end

section
/-! PROOFS. The statements about the memory operations (spec/42_mem_ops.md): what a load and a store answer and
leave, and stores that do not overlap. First the canonical form along a run and the byte a store does not
cover, then the statements. -/

namespace Sys2Proof.Machine

variable {s t : State}

/-! ## Memory along a run -/

/-- Every run keeps the canonical form. -/
theorem mem_wf_of_runOps_next {ops : List Instr} (hm : s.mem.wf) (h : runOps ops s = .next t) : t.mem.wf := by
  refine runOps_induction (P := fun s => s.mem.wf) (fun i s t hs hexec => ?_) hm h
  obtain ⟨-, u, r, he, rfl⟩ := exec_next_effect hexec
  exact he.mem_wf hs

/-! ## Stores that do not overlap -/

/-- A store leaves a byte outside its four as it was (20_memory.md R40). -/
theorem leavesByte_memStoreword_of_outside {o : Int} {a : Nat} (v : Word) (b : Byte)
    (h : (a : Int) < o ∨ o + 3 < a) : (Instr.memStoreword o v).leavesByte a b = b :=
  if_neg (by omega)

/-- What stores at offsets at least 4 apart leave in a byte does not depend on their order: one of the two does
not cover it. -/
theorem leavesByte_memStoreword_comm {o o' : Int} (v v' : Word) (a : Nat) (b : Byte)
    (h : o + 4 ≤ o' ∨ o' + 4 ≤ o) :
    (Instr.memStoreword o' v').leavesByte a ((Instr.memStoreword o v).leavesByte a b) =
      (Instr.memStoreword o v).leavesByte a ((Instr.memStoreword o' v').leavesByte a b) := by
  have hone : ((a : Int) < o ∨ o + 3 < a) ∨ ((a : Int) < o' ∨ o' + 3 < a) := by omega
  obtain hout | hout := hone
  · simp only [leavesByte_memStoreword_of_outside v _ hout]
  · simp only [leavesByte_memStoreword_of_outside v' _ hout]

/-! ## The statements -/

/-- Settles O40: in bounds the block left is `MemWrite`'s, read lane by lane inside the word and as before
outside it; out of bounds the store only answers. -/
theorem storeWordWritesBytes : Obligations.StoreWordWritesBytes := by
  refine ⟨fun addr wdata => decode_pack ⟨0x05#8, addr, wdata⟩, fun offset value s hs hm =>
    ⟨fun hin => ?_, fun hout => ?_⟩⟩
  · have he := Effect.memStoreIn offset value s hin
    have hbyte := State.writeMem_byte value hm (InBounds.toNat_add_lt hin)
    refine ⟨_, he.exec_next hs, fun a ha => ?_, fun k hk => ?_, he.mem_wf hm, rfl, rfl, hs, rfl, rfl, rfl⟩
    · rw [State.respond_byte, hbyte, if_neg (by omega)]
    · rw [State.respond_byte, hbyte, if_pos (by omega), Nat.add_sub_cancel_left, byteLane]
  · exact (Effect.memStoreOut offset value s hout).exec_next hs

/-- Settles O43: both orders leave canonical memories, equal byte by byte. -/
theorem disjointStoresCommute : Obligations.DisjointStoresCommute := by
  intro o o' v v' s t t' hm hdis ht ht'
  refine Memory.ext_byteAt (mem_wf_of_runOps_next hm ht) (mem_wf_of_runOps_next hm ht') fun a => ?_
  calc t.byte a
    _ = (Instr.memStoreword o' v').leavesByte a ((Instr.memStoreword o v).leavesByte a (s.byte a)) :=
      byte_of_runOps_next hm ht a
    _ = (Instr.memStoreword o v).leavesByte a ((Instr.memStoreword o' v').leavesByte a (s.byte a)) :=
      leavesByte_memStoreword_comm v v' a _ hdis
    _ = t'.byte a := (byte_of_runOps_next hm ht' a).symm

/-- Settles O38: in bounds the load answers `MemRead`'s word, which is the four bytes; out of bounds it answers
the typed failure. -/
theorem loadWordAnswersBytes : Obligations.LoadWordAnswersBytes :=
  ⟨fun addr wdata => decode_pack ⟨0x04#8, addr, wdata⟩, fun offset s hs =>
    ⟨fun hin => (Effect.memLoadIn offset s hin).exec_next hs,
      fun hout => (Effect.memLoadOut offset s hout).exec_next hs⟩⟩

end Sys2Proof.Machine
end

section
/-! PROOFS. The statements about the failure signals (spec/60_exceptions.md): how each operation ends, what a
signal leaves unchanged, and the halted block. First the status of an effect and what stays when it is not `ok`,
then the statements. -/

namespace Sys2Proof.Machine

variable {s u : State} {i : Instr} {r : Result}

/-! ## The status of an effect -/

/-- An effect ends with the status of the table, whatever the state (60_exceptions.md R100). -/
theorem Effect.status_eq (h : Effect i s u r) : r.status = i.tabledStatus := by
  cases h with
  | gprGetOut _ _ h | gprSetOut _ _ _ h | cop0GetOut _ _ h | cop0SetOut _ _ _ h => exact (if_neg h).symm
  | gprGetSlot | gprSetSlot => exact (if_pos (by omega)).symm
  | cop0GetEntry q | cop0SetReadOnly q | cop0SetEntry q => exact (if_pos (cop0_index_recognised q)).symm
  | memLoadIn _ _ h | memStoreIn _ _ _ h => exact (if_pos h).symm
  | memLoadOut _ _ h | memStoreOut _ _ _ h => exact (if_neg h).symm

/-- `FatalAbort` is the one result with the fatal status (30_encoding.md R62). -/
theorem Result.status_eq_fatal : r.status = .fatal ↔ r = .fatalAbort := by
  cases r <;> simp [Result.status]

/-- An effect that raises a signal leaves the storage of all three components (60_exceptions.md R107). -/
theorem Effect.storage_eq_of_status_ne_ok (h : Effect i s u r) (hr : r.status ≠ .ok) :
    u.gpr = s.gpr ∧ u.cop0 = s.cop0 ∧ u.mem = s.mem := by
  cases h with
  | gprSetSlot | cop0SetEntry | memStoreIn => exact absurd rfl hr
  | _ => exact ⟨rfl, rfl, rfl⟩

/-! ## The statements -/

/-- Settles O20: status and events of the effect are the table's, and the latch goes by the one fatal result. -/
theorem signalsAreAsTabled : Obligations.SignalsAreAsTabled := by
  intro i s t h
  obtain ⟨hs, u, r, he, rfl⟩ := exec_next_effect h
  refine ⟨⟨r, congrArg (· ++ [r]) he.responses_eq, he.status_eq⟩, he.diagnostics_eq, ?_⟩
  rw [State.respond_halted, he.halted_iff hs, ← Result.status_eq_fatal, he.status_eq]

/-- Settles O21: the status of the effect is the table's, and an effect with a status that is not `ok` stores
nothing. -/
theorem failuresChangeNoStorage : Obligations.FailuresChangeNoStorage := by
  intro i s hs hi
  obtain ⟨u, r, he, -⟩ := exec_effect i s
  obtain ⟨hgpr, hcop0, hmem⟩ := he.storage_eq_of_status_ne_ok (he.status_eq ▸ hi)
  exact ⟨u.respond r, he.exec_next hs, hgpr, hcop0, hmem, he.requests_eq⟩

/-- Settles O13: `fetch` and every operation test the latch before anything else. -/
theorem haltedBlockHasNoStep : Obligations.HaltedBlockHasNoStep :=
  fun _ hs => ⟨step_halted hs, fun i => exec_halted i hs⟩

end Sys2Proof.Machine
end

section
/-! PROOFS. The statements about reset and about how a run ends (spec/70_reset_and_hazards.md): every operation
completes in a running block, the latch stops a run at the first fatal operation, and the state after reset. -/

namespace Sys2Proof.Machine

variable {s : State}

/-! ## How a run ends -/

/-- An operation comes to a next state in a running block, and that is halted exactly when the operation is
fatal. -/
theorem exec_next_halted_iff (i : Instr) (hs : s.halted = false) :
    ∃ t, exec i s = .next t ∧ (t.halted = true ↔ i.tabledStatus = .fatal) := by
  obtain ⟨u, r, he, -⟩ := exec_effect i s
  have hnext := he.exec_next hs
  obtain ⟨-, -, hfatal⟩ := signalsAreAsTabled i s _ hnext
  exact ⟨_, hnext, hfatal⟩

/-- A run in which no operation but the last is fatal comes to its end: every operation that has another after it
leaves the block running. -/
theorem runOps_next_of_dropLast {ops : List Instr} (hs : s.halted = false)
    (h : ∀ i ∈ ops.dropLast, i.tabledStatus ≠ .fatal) :
    ∃ t, runOps ops s = .next t ∧ (t.halted = true ↔ ∃ i ∈ ops, i.tabledStatus = .fatal) := by
  induction ops generalizing s with
  | nil => exact ⟨s, rfl, by simp [hs]⟩
  | cons i is ih =>
    obtain ⟨u, hu, hfatal⟩ := exec_next_halted_iff i hs
    cases is with
    | nil => exact ⟨u, by rw [runOps_singleton, hu], by simpa using hfatal⟩
    | cons j js =>
      rw [List.dropLast_cons_cons, List.forall_mem_cons] at h
      obtain ⟨hi, hrest⟩ := h
      have hrunning : u.halted = false := by simpa [hi] using hfatal
      obtain ⟨t, ht, hhalted⟩ := ih hrunning hrest
      exact ⟨t, by rw [runOps_cons_of_next _ hu, ht],
        by rw [hhalted, List.exists_mem_cons_iff _ i, or_iff_right hi]⟩

/-- A run with a fatal operation before its last stops: the operation after the first fatal one finds the latch
set. -/
theorem runOps_fault_of_dropLast {ops : List Instr} (hs : s.halted = false)
    (h : ∃ i ∈ ops.dropLast, i.tabledStatus = .fatal) : runOps ops s = .fault .halted := by
  induction ops generalizing s with
  | nil => simp at h
  | cons i is ih =>
    cases is with
    | nil => simp at h
    | cons j js =>
      obtain ⟨u, hu, hfatal⟩ := exec_next_halted_iff i hs
      rw [runOps_cons_of_next _ hu]
      by_cases hi : i.tabledStatus = .fatal
      · exact runOps_cons_of_fault js (exec_halted j (hfatal.2 hi))
      · rw [List.dropLast_cons_cons, List.exists_mem_cons_iff, or_iff_right hi] at h
        exact ih (by simpa [hi] using hfatal) h

/-! ## The statements -/

/-- Settles O14: every operation has an effect, which in a running block is what `exec` answers. -/
theorem everyOperationCompletes : Obligations.EveryOperationCompletes := by
  intro i s hs
  obtain ⟨t, ht, -⟩ := exec_next_halted_iff i hs
  exact ⟨t, ht⟩

/-- Settles O19, by induction on the operations, for either place of the first fatal one. -/
theorem runEndsAtFirstFatal : Obligations.RunEndsAtFirstFatal :=
  fun _ _ hs => ⟨runOps_next_of_dropLast hs, runOps_fault_of_dropLast hs⟩

/-- Settles O46, component by component, from the laws of `State.resetWith`. -/
theorem resetLeavesTheResetState : Obligations.ResetLeavesTheResetState := fun p =>
  ⟨(State.resetWith_x p 0).trans (if_pos rfl), fun r hr => (State.resetWith_x p r).trans (if_neg hr),
    State.resetWith_c0 p, fun a _ => State.resetWith_byte p a, State.resetWith_halted p,
    State.resetWith_diagnostics p, State.resetWith_responses p, State.resetWith_requests p⟩

end Sys2Proof.Machine
end
